-- ==== Sys2Proof/Word.lean ====
section
/-! DEFINITION. The value types of the HuffmanTree core: bytes, 64-bit words, symbols, trees and code-table
entries (spec/00_scope.md R9, R14; spec/10_state.md R29, R38). -/

namespace Sys2Proof

/-- A byte: 8 bits, values 0 to 255 (R14). -/
abbrev Byte := BitVec 8

/-- A value of the one width W = 64 of every count, weight and length (R9). -/
abbrev Word := BitVec 64

/-- A symbol: "a byte value in range [0,127]" (R98). -/
abbrev Sym := Fin 128

/-- The value TREE holds: `Tree ::= Leaf s | Node l r` (R38).  An internal node stores its two children and
nothing else. -/
inductive HuffTree where
  | leaf (s : Sym)
  | node (l r : HuffTree)
deriving DecidableEq, Repr, Inhabited

/-- One entry of the code table: LEN, 8 bits, and BITS, 128 bits (R29). -/
structure CodeEntry where
  len  : BitVec 8
  bits : BitVec 128
deriving DecidableEq, Repr, Inhabited

end Sys2Proof
end

