-- ==== Sys2Proof/Config.lean ====
section
/-! DEFINITION. What the spec leaves to the implementation (the capacities, spec/00_scope.md R10) and the free
values (spec/93_implementation_defined.md U12, U13): constants with no body, so that no proof can see them. -/

namespace Sys2Proof.Config

/-- The OPEN parameters SRC_CAP, PAY_CAP and OUT_CAP (R10).  They ride in State, where no step changes them, so
that a statement about every state is a statement about every capacity (log entry 3). -/
structure Caps where
  srcCap : Nat
  payCap : Nat
  outCap : Nat
deriving DecidableEq, Repr

/-- The largest capacities R10 allows: what D6 gives a model "that wants the source's unbounded behaviour". -/
def Caps.largest : Caps := { srcCap := 2 ^ 56, payCap := 2 ^ 61, outCap := 2 ^ 64 - 1 }

/-- FREE VALUE: the byte at index `i` of a buffer whose unspecified bytes were drawn as draw number `draw`
(R36, R45, R206, R233).  The log entry is 4. -/
opaque freeByte (draw i : Nat) : Byte

/-- FREE VALUE: what TREE holds when TREE_VALID = 0 (R39, R45).  The log entry is 5. -/
opaque freeTree (draw : Nat) : HuffTree

/-- FREE VALUE: what PENDING holds when BUSY = 0 (R41, R45).  The log entry is 6. -/
opaque freeOpcode (draw : Nat) : Byte

end Sys2Proof.Config
end

