-- ==== Sys2Proof/Machine/State.lean ====
section
/-! DEFINITION. The state of the HuffmanTree core and of the host that drives it, the reasons a step can stop, and
the state after reset (spec/10_state.md R20 to R45; spec/60_exceptions.md R200; spec/70_reset_and_hazards.md R230,
R245). -/

namespace Sys2Proof.Machine

/-- The eight error kinds of R200.  STATUS.ERR is `Option ErrKind`: `none` is the spec's code 0, "no error". -/
inductive ErrKind where
  | emptyInput
  | singleSymbol
  | unknownSymbol
  | invalidFormat
  | symbolRange
  | sequence
  | illegalCommand
  | capacity
deriving DecidableEq, Repr

/-- The five data registers (R21). -/
inductive DataReg where
  | srcLen
  | tokLen
  | payLen
  | bitLen
  | outLen
deriving DecidableEq, Repr

/-- The four byte buffers (R31 to R35). -/
inductive Buf where
  | src
  | tok
  | pay
  | out
deriving DecidableEq, Repr

/-- One host access: a read or a write of one item, by its name (R43, R65). -/
inductive Access where
  | readCmd
  | writeCmd (op : Byte)
  | readStatus
  | writeStatus (v : BitVec 32)
  | readReg (r : DataReg)
  | writeReg (r : DataReg) (v : Word)
  | readCnt (s : Sym)
  | writeCnt (s : Sym) (w : Word)
  | readCode (s : Sym)
  | writeCode (s : Sym) (e : CodeEntry)
  | readByte (b : Buf) (i : Nat)
  | writeByte (b : Buf) (i : Nat) (v : Byte)
deriving DecidableEq, Repr

/-- What moves next: the host makes an access, the core has time to complete the command in flight, or the hardware
reset is signalled (R12, R230, R238).  The list of turns in State fixes the total order of R72. -/
inductive Turn where
  | host (a : Access)
  | core
  | reset
deriving DecidableEq, Repr

/-- The value a host read returned. -/
inductive Answer where
  | status (v : BitVec 32)
  | reg (v : Word)
  | cnt (w : Word)
  | code (e : CodeEntry)
  | byte (v : Byte)
deriving DecidableEq, Repr

/-- The bytes of one buffer: those that hold a value, as cells with strictly rising addresses; every other byte is
unspecified and reads as the free byte of draw number `seed` (R36, R45; log entry 4). -/
structure Buffer where
  cells : List Host.Cell
  seed  : Nat
deriving DecidableEq, Repr

/-- The whole state.  `caps` is configuration, `draws` counts free values, `turns` and `seen` are the host's side
(what it will do, and what its reads returned, the latest first), all four the model's own (log entries 3, 10); every
other field is the block's (R20). -/
structure State where
  caps      : Config.Caps
  busy      : Bool
  treeValid : Bool
  err       : Option ErrKind
  srcLen    : Word
  tokLen    : Word
  payLen    : Word
  bitLen    : Word
  outLen    : Word
  cnt       : Vector Word 128
  code      : Vector CodeEntry 128
  src       : Buffer
  tok       : Buffer
  pay       : Buffer
  out       : Buffer
  tree      : HuffTree
  pending   : Byte
  draws     : Nat
  turns     : List Turn
  seen      : List Answer
deriving DecidableEq, Repr

/-- Why the machine stops.  No command of the block and no host access ends here: R238 and
spec/93_implementation_defined.md say that nothing in the block is stuck. -/
inductive Fault where
  /-- Raised by the core's turn when BUSY = 1 and PENDING is no command of R81.  No run reaches such a state (R236
  puts only accepted opcodes into PENDING), so the fault is safe: the model stops where the spec has no state (log
  entry 12). -/
  | pendingIsNoCommand (op : Byte)
deriving DecidableEq, Repr

/-- Why the model gives a step no meaning.  Every constructor but the first is a host access that R245 refuses: "a
model refuses them (gives them no step and marks the run as gone wrong)"; all of them are safe (log entry 11). -/
inductive Refusal where
  /-- Raised by no arm once every command has its meaning; safe. -/
  | notModelled (mnemonic : String)
  /-- Raised by any host access but a STATUS read while BUSY = 1 (R240); safe. -/
  | accessWhileBusy
  /-- Raised by a host read of CMD (R24); safe. -/
  | readOfCmd
  /-- Raised by a host write of STATUS (R25); safe. -/
  | writeOfStatus
  /-- Raised by a host write of OUT_LEN (R43); safe. -/
  | writeOfOutLen
  /-- Raised by a host write of a CODE entry (R29); safe. -/
  | writeOfCode
  /-- Raised by a host write of a byte of OUT (R35); safe. -/
  | writeOfOut
  /-- Raised by a host access to a buffer at an index at or beyond its capacity (R43); safe. -/
  | indexBeyondCapacity
  /-- Raised by a host write of a length register above its bound (R44); safe. -/
  | lengthAboveBound
deriving DecidableEq, Repr

/-- The state right after reset (R45, R230): STATUS, the lengths and CNT are 0, CODE is absent.  TREE, PENDING and
every buffer byte are unspecified there and hold free values (log entries 4, 5, 6); the capacities are the largest
R10 allows (log entry 3); no turn is placed (log entries 2, 10). -/
def State.reset : State where
  caps      := .largest
  busy      := false
  treeValid := false
  err       := none
  srcLen    := 0
  tokLen    := 0
  payLen    := 0
  bitLen    := 0
  outLen    := 0
  cnt       := Vector.replicate 128 0
  code      := Vector.replicate 128 { len := 0, bits := 0 }
  src       := { cells := [], seed := 0 }
  tok       := { cells := [], seed := 1 }
  pay       := { cells := [], seed := 2 }
  out       := { cells := [], seed := 3 }
  tree      := Config.freeTree 4
  pending   := Config.freeOpcode 5
  draws     := 6
  turns     := []
  seen      := []

end Sys2Proof.Machine
end

