-- ==== Sys2Proof/Machine/Ops.lean ====
section
/-! DEFINITION. The shared operations over buffers, registers and tables (spec/00_scope.md R15;
spec/20_memory.md R60 to R70), and the entry into and return from an error (spec/60_exceptions.md R206, R210,
R212). -/

namespace Sys2Proof.Machine

/-! ### Cells and buffers -/

/-- The byte listed at address `i`. -/
def cellsRead : List Host.Cell → Nat → Option Byte
  | [], _ => none
  | (a, v) :: cs, i => if a = i then some v else cellsRead cs i

/-- The cells with `v` listed at address `i`, kept in rising order. -/
def cellsWrite : List Host.Cell → Nat → Byte → List Host.Cell
  | [], i, v => [(i, v)]
  | (a, w) :: cs, i, v =>
    if i < a then (i, v) :: (a, w) :: cs
    else if i = a then (i, v) :: cs
    else (a, w) :: cellsWrite cs i v

/-- The bytes of a list as cells at consecutive addresses from `i`. -/
def cellsFrom : Nat → List Byte → List Host.Cell
  | _, [] => []
  | i, b :: bs => (i, b) :: cellsFrom (i + 1) bs

/-- `B[i]`: the byte at index `i`.  ONE definition of what an unlisted address reads as: the free byte of the
buffer's draw (R36, R233). -/
def Buffer.get (b : Buffer) (i : Nat) : Byte :=
  (cellsRead b.cells i).getD (Config.freeByte b.seed i)

/-- `B[i] <- v`. -/
def Buffer.put (b : Buffer) (i : Nat) (v : Byte) : Buffer :=
  { b with cells := cellsWrite b.cells i v }

/-- `MemRead(B, 0, n)`. -/
def Buffer.bytes (b : Buffer) (n : Nat) : List Byte :=
  (List.range n).map b.get

/-- The buffer after a command wrote `bs` from index 0: the bytes at and beyond the new length are unspecified, so
they come from a draw of their own (R36). -/
def Buffer.holding (bs : List Byte) (draw : Nat) : Buffer :=
  { cells := cellsFrom 0 bs, seed := draw }

/-- A buffer all of whose bytes are unspecified (R45, R206). -/
def Buffer.unspecified (draw : Nat) : Buffer :=
  { cells := [], seed := draw }

/-- Strictly rising addresses. -/
def cellsRising : List Host.Cell → Bool
  | [] => true
  | [_] => true
  | (a, _) :: (b, w) :: cs => a < b && cellsRising ((b, w) :: cs)

/-- The canonical form of one buffer: rising addresses, each below the capacity.  An unlisted address reads as a free
value, which no listed byte can be said to equal, so there is nothing more to ask (log entry 4). -/
def Buffer.wf (cap : Nat) (b : Buffer) : Bool :=
  cellsRising b.cells && b.cells.all (fun c => c.1 < cap)

/-! ### Capacities, registers and buffers by name -/

/-- TOK_CAP = 765 = 6 × 128 − 3 (R9). -/
def tokCap : Nat := 765

/-- The capacity of a buffer (R32 to R35). -/
def State.capOf (s : State) : Buf → Nat
  | .src => s.caps.srcCap
  | .tok => tokCap
  | .pay => s.caps.payCap
  | .out => s.caps.outCap

/-- The length register of a buffer: how many bytes from index 0 are meaningful (R31). -/
def State.lenOf (s : State) : Buf → Nat
  | .src => s.srcLen.toNat
  | .tok => s.tokLen.toNat
  | .pay => s.payLen.toNat
  | .out => s.outLen.toNat

/-- A buffer by its name. -/
def State.bufOf (s : State) : Buf → Buffer
  | .src => s.src
  | .tok => s.tok
  | .pay => s.pay
  | .out => s.out

/-- `B[i] <- v` in the state. -/
def State.putByte (s : State) (i : Nat) (v : Byte) : Buf → State
  | .src => { s with src := s.src.put i v }
  | .tok => { s with tok := s.tok.put i v }
  | .pay => { s with pay := s.pay.put i v }
  | .out => { s with out := s.out.put i v }

/-- A data register by its name (R21). -/
def State.getReg (s : State) : DataReg → Word
  | .srcLen => s.srcLen
  | .tokLen => s.tokLen
  | .payLen => s.payLen
  | .bitLen => s.bitLen
  | .outLen => s.outLen

/-- A data register written whole: a legal value is stored exactly (R44, R196), and no byte changes (R43; log
entry 7). -/
def State.setReg (s : State) (v : Word) : DataReg → State
  | .srcLen => { s with srcLen := v }
  | .tokLen => { s with tokLen := v }
  | .payLen => { s with payLen := v }
  | .bitLen => { s with bitLen := v }
  | .outLen => { s with outLen := v }

/-- The canonical form of the whole memory: every buffer in its own. -/
def Memory.wf (s : State) : Bool :=
  s.src.wf s.caps.srcCap && s.tok.wf tokCap && s.pay.wf s.caps.payCap && s.out.wf s.caps.outCap

/-! ### What commands do to their destinations -/

/-- All 128 counts 0. -/
def zeroCounts : Vector Word 128 := Vector.replicate 128 0

/-- The absent entry: LEN = 0 and BITS = 0 (R29). -/
def absentEntry : CodeEntry := { len := 0, bits := 0 }

/-- The table all of whose entries are absent. -/
def absentCodes : Vector CodeEntry 128 := Vector.replicate 128 absentEntry

/-- `CNT[s] <- 0` for all `s`. -/
def State.zeroCnt (s : State) : State := { s with cnt := zeroCounts }

/-- `CODE[*] <- absent` (R15). -/
def State.clearCodes (s : State) : State := { s with code := absentCodes }

/-- `TREE <- t ; TREE_VALID <- 1 ; CODE[*] <- absent`, the success of BUILD and DESERIALIZE (R121, R150). -/
def State.installTree (s : State) (t : HuffTree) : State :=
  { s with tree := t, treeValid := true, code := absentCodes }

/-- `TREE_VALID <- 0 ; CODE[*] <- absent`: the tree is lost and what TREE holds is unspecified (R39, R129). -/
def State.dropTree (s : State) : State :=
  { s with tree := Config.freeTree s.draws, treeValid := false, code := absentCodes, draws := s.draws + 1 }

/-- `MemWrite(TOK, 0, len(bs), bs) ; TOK_LEN <- len(bs)`. -/
def State.writeTok (s : State) (bs : List Byte) : State :=
  { s with tok := Buffer.holding bs s.draws, tokLen := BitVec.ofNat 64 bs.length, draws := s.draws + 1 }

/-- `TOK_LEN <- 0`; the bytes of TOK are unspecified (R146, R206; log entry 13). -/
def State.dropTok (s : State) : State :=
  { s with tok := Buffer.unspecified s.draws, tokLen := 0, draws := s.draws + 1 }

/-- `MemWrite(PAY, 0, len(bs), bs) ; PAY_LEN <- len(bs) ; BITLEN <- n`. -/
def State.writePay (s : State) (bs : List Byte) (n : Nat) : State :=
  { s with pay := Buffer.holding bs s.draws, payLen := BitVec.ofNat 64 bs.length, bitLen := BitVec.ofNat 64 n,
           draws := s.draws + 1 }

/-- `BITLEN <- 0 ; PAY_LEN <- 0`; the bytes of PAY are unspecified (R169, R206; log entry 13). -/
def State.dropPay (s : State) : State :=
  { s with pay := Buffer.unspecified s.draws, payLen := 0, bitLen := 0, draws := s.draws + 1 }

/-- `MemWrite(OUT, 0, len(bs), bs) ; OUT_LEN <- len(bs)`. -/
def State.writeOut (s : State) (bs : List Byte) : State :=
  { s with out := Buffer.holding bs s.draws, outLen := BitVec.ofNat 64 bs.length, draws := s.draws + 1 }

/-- `OUT_LEN <- 0`; the bytes of OUT are unspecified (R180, R206; log entry 13). -/
def State.dropOut (s : State) : State :=
  { s with out := Buffer.unspecified s.draws, outLen := 0, draws := s.draws + 1 }

/-! ### Errors: entry and return -/

/-- `ERR <- E` (R206, R207): the code and nothing else is recorded. -/
def State.setErr (s : State) (e : ErrKind) : State := { s with err := some e }

/-- `ERR <- 0` (R191, R212): the one return from an error that keeps all other state. -/
def State.clearErr (s : State) : State := { s with err := none }

/-- TAKING AN ERROR (R206), the one operation every command ends in.  A command that succeeds leaves the state its
pseudocode computed; one that raises `e` leaves its failure rule `fail` applied to the state BEFORE the command,
with `ERR <- e`. -/
def conclude (fail : State → State) (s : State) : Except ErrKind State → State
  | .ok t => t
  | .error e => (fail s).setErr e

/-! ### Reset -/

/-- Hardware reset and SRST (R193, R230): every item of the block at its reset value (R45).  TREE, PENDING and every
buffer byte are unspecified afterwards, so each takes a draw of its own.  The capacities are no state of the
block, and what the host has read and will do is the host's. -/
def State.resetBlock (s : State) : State :=
  { s with
    busy := false, treeValid := false, err := none
    srcLen := 0, tokLen := 0, payLen := 0, bitLen := 0, outLen := 0
    cnt := zeroCounts, code := absentCodes
    src := Buffer.unspecified s.draws
    tok := Buffer.unspecified (s.draws + 1)
    pay := Buffer.unspecified (s.draws + 2)
    out := Buffer.unspecified (s.draws + 3)
    tree := Config.freeTree (s.draws + 4)
    pending := Config.freeOpcode (s.draws + 5)
    draws := s.draws + 6 }

end Sys2Proof.Machine
end

