-- ==== Sys2Proof/Machine/Operands.lean ====
section
/-! DEFINITION. The operand forms of the commands, all of them implicit (spec/30_encoding.md R82): symbols, byte
lists, bit lists and code-table entries, and the conversions between them (spec/00_scope.md R14, R15;
spec/20_memory.md R66; spec/30_encoding.md R90, R95 to R98). -/

namespace Sys2Proof.Machine

/-- The marker byte OPEN (R8, R90). -/
def openByte : Byte := 0x80

/-- The marker byte CLOSE (R8, R90). -/
def closeByte : Byte := 0x81

/-- The filler byte the serializer emits (R9, R91). -/
def fillerByte : Byte := 0xFF

/-- The symbol a byte is: one of 0 to 127, or none when bit 7 is set (R98). -/
def symOf (b : Byte) : Option Sym :=
  if h : b.toNat < 128 then some ⟨b.toNat, h⟩ else none

/-- The byte of a symbol. -/
def byteOf (s : Sym) : Byte := BitVec.ofNat 8 s.val

/-- `ceil8(n) = (n + 7) div 8` over the naturals (R14). -/
def ceil8 (n : Nat) : Nat := (n + 7) / 8

/-- The operand (SRC, SRC_LEN): the source byte sequence (R82). -/
def State.source (s : State) : List Byte := s.src.bytes s.srcLen.toNat

/-- The operand (TOK, TOK_LEN): the serialized tree (R82). -/
def State.tokens (s : State) : List Byte := s.tok.bytes s.tokLen.toNat

/-- The operand (OUT, OUT_LEN): the decoded bytes (R82). -/
def State.output (s : State) : List Byte := s.out.bytes s.outLen.toNat

/-- `StreamBit(PAY, i)`: bit `7 − (i mod 8)` of `PAY[i div 8]` (R66). -/
def streamBit (b : Buffer) (i : Nat) : Bool := (b.get (i / 8)).getLsbD (7 - i % 8)

/-- The operand (PAY, BITLEN): the first BITLEN bits of the payload, in stream order (R95). -/
def State.payloadBits (s : State) : List Bool :=
  (List.range s.bitLen.toNat).map (streamBit s.pay)

/-- The code bits left-aligned in 128 bits, the first at bit 127 (R97). -/
def leftAlign : List Bool → BitVec 128
  | [] => 0
  | b :: bs => (if b then 1#128 <<< 127 else 0#128) ||| (leftAlign bs >>> 1)

/-- `CODE[s] <- p`: LEN = len(p) and `BITS[127 − j] = p[j]` (R97). -/
def entryOfBits (p : List Bool) : CodeEntry :=
  { len := BitVec.ofNat 8 p.length, bits := leftAlign p }

/-- The bits `CODE[b].BITS[127 − j]` for j = 0 .. LEN − 1, root first (R165). -/
def entryPath (e : CodeEntry) : List Bool :=
  (List.range e.len.toNat).map (fun j => e.bits.getLsbD (127 - j))

/-- Whether an entry is absent: LEN = 0 (R29). -/
def entryAbsent (e : CodeEntry) : Bool := e.len == 0

/-- One byte from at most eight bits: bit 7 takes the first, and unused low-order bits stay PAD = 0 (R66, R96). -/
def packByte : Nat → List Bool → Byte
  | 0, _ => 0
  | _, [] => 0
  | k + 1, b :: bs => (if b then 1#8 <<< k else 0#8) ||| packByte k bs

/-- The packed bytes of a bit stream: `ceil8(n)` bytes, each filled from bit 7 down to bit 0 (R66, R95, R165). -/
def packBits (bits : List Bool) : List Byte :=
  (List.range (ceil8 bits.length)).map (fun i => packByte 8 (bits.drop (8 * i)))

/-- `LE64(n)`: eight bytes, the least significant first (R15, R63). -/
def le64 (v : Word) : List Byte :=
  (List.range 8).map (fun i => v.extractLsb' (8 * i) 8)

/-- `U64(x)`, the inverse of `LE64` (R102). -/
def u64 : List Byte → Nat
  | [] => 0
  | b :: bs => b.toNat + 256 * u64 bs

end Sys2Proof.Machine
end

