-- ==== Sys2Proof/Machine/Trees.lean ====
section
/-! DEFINITION. Trees: leaves, height, validity, paths and the token-stream format (spec/10_state.md R38, R39;
spec/30_encoding.md R91 to R93; spec/42_code_table_generator.md R136; spec/43_tree_serializer.md R151). -/

namespace Sys2Proof.Machine

/-- The leaf symbols, left to right. -/
def leaves : HuffTree → List Sym
  | .leaf s => [s]
  | .node l r => leaves l ++ leaves r

/-- The number of internal nodes. -/
def internalNodes : HuffTree → Nat
  | .leaf _ => 0
  | .node l r => internalNodes l + internalNodes r + 1

/-- The height: the number of edges on the longest path. -/
def height : HuffTree → Nat
  | .leaf _ => 0
  | .node l r => max (height l) (height r) + 1

/-- Whether the tree is a `Node`. -/
def isNode : HuffTree → Bool
  | .leaf _ => false
  | .node _ _ => true

/-- Whether a list of symbols holds none twice. -/
def noRepeats : List Sym → Bool
  | [] => true
  | s :: ss => !ss.contains s && noRepeats ss

/-- A valid tree (R39): a `Node`, with every leaf symbol unique.  That symbols are in 0 to 127 is their type. -/
def treeOk (t : HuffTree) : Bool := isNode t && noRepeats (leaves t)

/-- The child a bit selects: 0 the left, 1 the right (R136).  A leaf has no child; no rule asks for one (R179: TREE
is a `Node` wherever DECODE takes a step), and the model leaves the cursor where it is (log entry 12). -/
def child (bit : Bool) : HuffTree → HuffTree
  | .leaf s => .leaf s
  | .node l r => if bit then r else l

/-- `Ser` (R91). -/
def ser : HuffTree → List Byte
  | .leaf s => [openByte, byteOf s, closeByte]
  | .node l r => [openByte] ++ ser l ++ [fillerByte] ++ ser r ++ [closeByte]

/-- The CLOSE that ends a subtree (R151, last check). -/
def parseClose (t : HuffTree) : List Byte → Option (HuffTree × List Byte)
  | [] => none
  | b :: rest => if b = closeByte then some (t, rest) else none

/-- The two subtrees of an internal node, the filler byte between them skipped by position and not inspected, and
the CLOSE (R151); `sub` parses one subtree. -/
def parseNode (sub : List Byte → Option (HuffTree × List Byte)) (bs : List Byte) : Option (HuffTree × List Byte) :=
  match sub bs with
  | none => none
  | some (_, []) => none
  | some (l, _filler :: afterFiller) =>
    match sub afterFiller with
    | none => none
    | some (r, rest) => parseClose (.node l r) rest

/-- The value byte of a leaf, below 0x80 (R153), and the CLOSE. -/
def parseLeaf (b : Byte) (rest : List Byte) : Option (HuffTree × List Byte) :=
  match symOf b with
  | none => none
  | some s => parseClose (.leaf s) rest

/-- `Parse` (R151), on the bytes from index `i` on; it returns the tree and the bytes just after it, and `none` where
the rule raises InvalidFormatError.  Every nesting level takes a byte, so the length of the stream is fuel enough. -/
def parse : Nat → List Byte → Option (HuffTree × List Byte)
  | 0, _ => none
  | _, [] => none
  | _, [_] => none
  | fuel + 1, b :: c :: rest =>
    if b ≠ openByte then none
    else if c = openByte then parseNode (parse fuel) (c :: rest)
    else parseLeaf c rest

/-- The path of every leaf, in root-to-leaf order, with `p` the path so far: what `Walk` writes, and the order it
writes it in (R135, R136). -/
def walk : HuffTree → List Bool → List (Sym × List Bool)
  | .leaf s, p => [(s, p)]
  | .node l r, p => walk l (p ++ [false]) ++ walk r (p ++ [true])

/-- A code table written entry by entry: `CODE[s] <- p` for each pair in order. -/
def writeCodes : List (Sym × List Bool) → Vector CodeEntry 128 → Vector CodeEntry 128
  | [], c => c
  | (s, p) :: rest, c => writeCodes rest (c.set s (entryOfBits p))

/-- The code table of a tree: all entries absent, then `Walk(TREE, [])` (R135). -/
def codesOf (t : HuffTree) : Vector CodeEntry 128 := writeCodes (walk t []) absentCodes

end Sys2Proof.Machine
end

