-- ==== Sys2Proof/Machine/Builder.lean ====
section
/-! DEFINITION. The TreeBuilder: BUILD and its priority queue (spec/41_tree_builder.md R120 to R131). -/

namespace Sys2Proof.Machine

/-- An entry of the priority queue (R120): a weight, a sequence number and a tree. -/
structure QEntry where
  w    : Nat
  seq  : Nat
  node : HuffTree
deriving DecidableEq, Repr

/-- The order of the queue (R127): the weight first, then the sequence number. -/
def QEntry.before (x y : QEntry) : Bool := x.w < y.w || (x.w == y.w && x.seq < y.seq)

/-- `extractMin` on the queue whose entries are `x` and those of the list: the least entry, and the others (R127). -/
def extractMin : QEntry → List QEntry → QEntry × List QEntry
  | x, [] => (x, [])
  | x, y :: ys =>
    if y.before x then
      let r := extractMin y ys
      (r.1, x :: r.2)
    else
      let r := extractMin x ys
      (r.1, y :: r.2)

/-- The entry that merges `a`, extracted first and so the left child, and `b`, the right child; it is the `k`-th merge
(R126, R127). -/
def mergeEntries (k : Nat) (a b : QEntry) : QEntry :=
  { w := a.w + b.w, seq := 128 + k, node := .node a.node b.node }

/-- The merge loop from the `k`-th merge on (R121, R126).  Each pass takes two entries and puts one back, so the number
of entries is fuel enough; with one entry left the tree is its node. -/
def mergeLoop : Nat → Nat → QEntry → List QEntry → HuffTree
  | 0, _, x, _ => x.node
  | fuel + 1, k, x, xs =>
    match extractMin x xs with
    | (a, []) => a.node
    | (a, y :: ys) =>
      match extractMin y ys with
      | (b, rest) => mergeLoop fuel (k + 1) (mergeEntries k a b) rest

/-- The queue before the first merge: a leaf for every symbol of nonzero weight, in ascending order (R121, R122). -/
def initialQueue (cnt : Vector Word 128) : List QEntry :=
  (List.finRange 128).filterMap fun s =>
    if cnt[s] = 0 then none else some { w := cnt[s].toNat, seq := s.val, node := .leaf s }

/-- The sum of all 128 entries, over the naturals (R125). -/
def weightSum (cnt : Vector Word 128) : Nat :=
  ((List.finRange 128).map fun s => cnt[s].toNat).sum

/-- The tree BUILD makes of the weights, or the error it raises: empty, then single, then the sum (R123 to R126). -/
def buildTree (cnt : Vector Word 128) : Except ErrKind HuffTree :=
  match initialQueue cnt with
  | [] => .error .emptyInput
  | [_] => .error .singleSymbol
  | x :: y :: q =>
    if 2 ^ 64 ≤ weightSum cnt then .error .capacity
    else .ok (mergeLoop (q.length + 2) 0 x (y :: q))

/-- What BUILD computes (R121). -/
def buildResult (s : State) : Except ErrKind State :=
  match buildTree s.cnt with
  | .error e => .error e
  | .ok t => .ok (s.installTree t)

/-- BUILD.  A failing BUILD loses the tree (R129). -/
def execBuild (s : State) : Host.Outcome State Fault Refusal :=
  .next (conclude State.dropTree s (buildResult s))

end Sys2Proof.Machine
end

