-- ==== Sys2Proof/Machine/Counter.lean ====
section
/-! DEFINITION. The FrequencyCounter: COUNT (spec/40_frequency_counter.md R110 to R116). -/

namespace Sys2Proof.Machine

/-- The counts after the bytes of a list, from counts `acc`; `none` when a byte is 128 or more (R110, R112). -/
def tally : List Byte → Vector Word 128 → Option (Vector Word 128)
  | [], acc => some acc
  | b :: bs, acc =>
    match symOf b with
    | none => none
    | some s => tally bs (acc.set s (acc[s] + 1))

/-- What COUNT computes: it overwrites CNT, and raises SymbolRangeError (R110, R112). -/
def countResult (s : State) : Except ErrKind State :=
  match tally s.source zeroCounts with
  | none => .error .symbolRange
  | some c => .ok { s with cnt := c }

/-- COUNT.  A failing COUNT leaves every count 0 (R113). -/
def execCount (s : State) : Host.Outcome State Fault Refusal :=
  .next (conclude State.zeroCnt s (countResult s))

end Sys2Proof.Machine
end

