-- ==== Sys2Proof/Machine/Generator.lean ====
section
/-! DEFINITION. The CodeTableGenerator: GENCODES (spec/42_code_table_generator.md R135 to R140). -/

namespace Sys2Proof.Machine

/-- What GENCODES computes (R135), and the SequenceError of R139. -/
def gencodesResult (s : State) : Except ErrKind State :=
  if s.treeValid then .ok { s with code := codesOf s.tree } else .error .sequence

/-- GENCODES.  A failing GENCODES leaves every entry absent (R139). -/
def execGencodes (s : State) : Host.Outcome State Fault Refusal :=
  .next (conclude State.clearCodes s (gencodesResult s))

end Sys2Proof.Machine
end

