-- ==== Sys2Proof/Machine/Packer.lean ====
section
/-! DEFINITION. The BitPacker: ENCODE (spec/44_bit_packer.md R165 to R171). -/

namespace Sys2Proof.Machine

/-- The entry ENCODE uses for a source byte: none when the byte is 128 or more or its entry is absent (R167). -/
def presentEntry (code : Vector CodeEntry 128) (b : Byte) : Option CodeEntry :=
  match symOf b with
  | none => none
  | some s => if entryAbsent code[s] then none else some code[s]

/-- The bit stream of a source, after `n` bits emitted so far.  For each byte the unknown-symbol check comes before
the capacity check, and the first byte at which either fails gives the error (R167, R168). -/
def encodeBits (code : Vector CodeEntry 128) (payCap : Nat) : List Byte → Nat → Except ErrKind (List Bool)
  | [], _ => .ok []
  | b :: bs, n =>
    match presentEntry code b with
    | none => .error .unknownSymbol
    | some e =>
      if payCap < ceil8 (n + e.len.toNat) then .error .capacity
      else
        match encodeBits code payCap bs (n + e.len.toNat) with
        | .error x => .error x
        | .ok bits => .ok (entryPath e ++ bits)

/-- What ENCODE computes (R165). -/
def encodeResult (s : State) : Except ErrKind State :=
  match encodeBits s.code s.caps.payCap s.source 0 with
  | .error e => .error e
  | .ok bits => .ok (s.writePay (packBits bits) bits.length)

/-- ENCODE.  A failing ENCODE leaves BITLEN = 0 and PAY_LEN = 0 (R169). -/
def execEncode (s : State) : Host.Outcome State Fault Refusal :=
  .next (conclude State.dropPay s (encodeResult s))

end Sys2Proof.Machine
end

