-- ==== Sys2Proof/Machine/Serializer.lean ====
section
/-! DEFINITION. The TreeSerializer and TreeDeserializer: SERIALIZE and DESERIALIZE (spec/43_tree_serializer.md R145
to R159). -/

namespace Sys2Proof.Machine

/-- What SERIALIZE computes (R145), and the SequenceError of R146. -/
def serializeResult (s : State) : Except ErrKind State :=
  if s.treeValid then .ok (s.writeTok (ser s.tree)) else .error .sequence

/-- SERIALIZE.  A failing SERIALIZE leaves TOK_LEN = 0 (R146). -/
def execSerialize (s : State) : Host.Outcome State Fault Refusal :=
  .next (conclude State.dropTok s (serializeResult s))

/-- The tree a token stream denotes, or none: the parse must use all of the stream (R152) and give a valid tree
(R154). -/
def treeOfTokens (bs : List Byte) : Option HuffTree :=
  match parse bs.length bs with
  | some (t, []) => if treeOk t then some t else none
  | _ => none

/-- What DESERIALIZE computes (R150), and the InvalidFormatError of R156. -/
def deserializeResult (s : State) : Except ErrKind State :=
  match treeOfTokens s.tokens with
  | none => .error .invalidFormat
  | some t => .ok (s.installTree t)

/-- DESERIALIZE.  A failing DESERIALIZE loses the tree (R156). -/
def execDeserialize (s : State) : Host.Outcome State Fault Refusal :=
  .next (conclude State.dropTree s (deserializeResult s))

end Sys2Proof.Machine
end

