-- ==== Sys2Proof/Machine/Unpacker.lean ====
section
/-! DEFINITION. The BitUnpacker and tree walker: DECODE (spec/45_bit_unpacker.md R175 to R182). -/

namespace Sys2Proof.Machine

/-- The tree walk over the remaining bits, with the cursor, the flag atRoot and the number `m` of symbols emitted so
far (R175): the symbols it still emits, or the error it raises (R177, R178). -/
def decodeBits (root : HuffTree) (outCap : Nat) : List Bool → HuffTree → Bool → Nat → Except ErrKind (List Sym)
  | [], _, atRoot, _ => if atRoot then .ok [] else .error .invalidFormat
  | bit :: bits, cur, _, m =>
    match child bit cur with
    | .leaf s =>
      if outCap ≤ m then .error .capacity
      else
        match decodeBits root outCap bits root true (m + 1) with
        | .error e => .error e
        | .ok out => .ok (s :: out)
    | .node l r => decodeBits root outCap bits (.node l r) false m

/-- What DECODE computes: the tree is tested first, then the payload length, then bit by bit (R175, R176, R178,
R179). -/
def decodeResult (s : State) : Except ErrKind State :=
  if s.treeValid then
    if s.payLen.toNat < ceil8 s.bitLen.toNat then .error .invalidFormat
    else
      match decodeBits s.tree s.caps.outCap s.payloadBits s.tree true 0 with
      | .error e => .error e
      | .ok out => .ok (s.writeOut (out.map byteOf))
  else .error .sequence

/-- DECODE.  A failing DECODE leaves OUT_LEN = 0 (R180). -/
def execDecode (s : State) : Host.Outcome State Fault Refusal :=
  .next (conclude State.dropOut s (decodeResult s))

end Sys2Proof.Machine
end

