-- ==== Sys2Proof/Machine/Composite.lean ====
section
/-! DEFINITION. The composite commands COMPRESS and DECOMPRESS (spec/46_composite_and_control.md R185 to R190). -/

namespace Sys2Proof.Machine

/-- The five stages of COMPRESS, each on the state the previous one left, stopping at the first that raises (R185). -/
def compressResult (s : State) : Except ErrKind State :=
  countResult s >>= buildResult >>= gencodesResult >>= encodeResult >>= serializeResult

/-- A failing COMPRESS leaves none of its results (R185, R187). -/
def State.dropCompressed (s : State) : State := s.zeroCnt.dropTree.dropPay.dropTok

/-- COMPRESS. -/
def execCompress (s : State) : Host.Outcome State Fault Refusal :=
  .next (conclude State.dropCompressed s (compressResult s))

/-- The two stages of DECOMPRESS (R188). -/
def decompressResult (s : State) : Except ErrKind State :=
  deserializeResult s >>= decodeResult

/-- A failing DECOMPRESS leaves none of its results, also when the tree had parsed (R188, R190). -/
def State.dropDecompressed (s : State) : State := s.dropTree.dropOut

/-- DECOMPRESS. -/
def execDecompress (s : State) : Host.Outcome State Fault Refusal :=
  .next (conclude State.dropDecompressed s (decompressResult s))

end Sys2Proof.Machine
end

