-- ==== Sys2Proof/Machine/Control.lean ====
section
/-! DEFINITION. The control commands CLRERR and SRST (spec/46_composite_and_control.md R191 to R194). -/

namespace Sys2Proof.Machine

/-- CLRERR: `ERR <- 0`, nothing else (R191). -/
def execClrerr (s : State) : Host.Outcome State Fault Refusal :=
  .next s.clearErr

/-- SRST: exactly the effect of a hardware reset (R193). -/
def execSrst (s : State) : Host.Outcome State Fault Refusal :=
  .next s.resetBlock

end Sys2Proof.Machine
end

