-- ==== Sys2Proof/Syntax.lean ====
section
/-! DEFINITION. The commands, one constructor per row of spec/opcode_table.json (spec/30_encoding.md R81).  No
command carries an operand (R80, R82). -/

namespace Sys2Proof

/-- The eleven commands of the block. -/
inductive Instr where
  | count
  | build
  | gencodes
  | serialize
  | encode
  | deserialize
  | decode
  | compress
  | decompress
  | clrerr
  | srst
deriving DecidableEq, Repr

end Sys2Proof
end

