-- ==== Sys2Proof/Decode.lean ====
section
/-! DEFINITION. Decoding of a command word, total on all 256 values, and the encoder (spec/30_encoding.md R80,
R81, R83; spec/opcode_table.json). -/

namespace Sys2Proof

/-- What a value written to CMD stands for: one of the eleven commands, or "illegal" (R83). -/
inductive Decoded where
  | command (i : Instr)
  | illegal (op : Byte)
deriving DecidableEq, Repr

/-- One row of the opcode table: a command is selected by `opcode & mask == pattern` (R81). -/
structure OpcodeRow where
  mask    : Byte
  pattern : Byte
  instr   : Instr
deriving DecidableEq, Repr

/-- The opcode map of R81: "all eight bits are compared". -/
def opcodeTable : List OpcodeRow :=
  [ ⟨0xFF, 0x01, .count⟩,
    ⟨0xFF, 0x02, .build⟩,
    ⟨0xFF, 0x03, .gencodes⟩,
    ⟨0xFF, 0x04, .serialize⟩,
    ⟨0xFF, 0x05, .encode⟩,
    ⟨0xFF, 0x06, .deserialize⟩,
    ⟨0xFF, 0x07, .decode⟩,
    ⟨0xFF, 0x08, .compress⟩,
    ⟨0xFF, 0x09, .decompress⟩,
    ⟨0xFF, 0x0E, .clrerr⟩,
    ⟨0xFF, 0x0F, .srst⟩ ]

/-- Whether a row of the table selects the word. -/
def OpcodeRow.selects (r : OpcodeRow) (op : Byte) : Bool := op &&& r.mask == r.pattern

/-- The first row that selects the word; a word that no row selects is illegal, by its own value. -/
def decodeIn : List OpcodeRow → Byte → Decoded
  | [], op => .illegal op
  | r :: rs, op => if r.selects op then .command r.instr else decodeIn rs op

/-- The decoder: total on all 256 values of the command word (R83). -/
def decode (op : Byte) : Decoded := decodeIn opcodeTable op

/-- The word of a command (R81). -/
def encode : Instr → Byte
  | .count       => 0b00000001
  | .build       => 0b00000010
  | .gencodes    => 0b00000011
  | .serialize   => 0b00000100
  | .encode      => 0b00000101
  | .deserialize => 0b00000110
  | .decode      => 0b00000111
  | .compress    => 0b00001000
  | .decompress  => 0b00001001
  | .clrerr      => 0b00001110
  | .srst        => 0b00001111

/-- The command word whose bits are `w`, of which the table gives `nbits` (every bit above them is 0).  A command
is ONE 8-bit word (R80), so the word is the low byte. -/
def tableByte (nbits w : Nat) : Byte := BitVec.ofNat 8 (w % 2 ^ nbits)

/-- The instruction the decoder reads from a word numbered as spec/opcode_table.json numbers it. -/
def decodeTableWord (nbits w : Nat) : Option Instr :=
  match decode (tableByte nbits w) with
  | .command i => some i
  | .illegal _ => none

end Sys2Proof
end

