-- ==== Sys2Proof/Machine/Flags.lean ====
section
/-! DEFINITION. STATUS: the error codes and the 32-bit register the host reads (spec/10_state.md R23, R25, R26;
spec/60_exceptions.md R200). -/

namespace Sys2Proof.Machine

/-- The code of an error kind (R200). -/
def ErrKind.code : ErrKind → BitVec 4
  | .emptyInput     => 1
  | .singleSymbol   => 2
  | .unknownSymbol  => 3
  | .invalidFormat  => 4
  | .symbolRange    => 5
  | .sequence       => 6
  | .illegalCommand => 7
  | .capacity       => 8

/-- The field ERR: a code of R200, 0 when there is no error. -/
def State.errField (s : State) : BitVec 4 :=
  match s.err with
  | none => 0
  | some e => e.code

/-- STATUS (R25): bits 31:8 zero, ERR in 7:4, bits 3:2 zero, TREE_VALID in bit 1, BUSY in bit 0. -/
def State.status (s : State) : BitVec 32 :=
  (0 : BitVec 24) ++ s.errField ++ (0 : BitVec 2) ++ BitVec.ofBool s.treeValid ++ BitVec.ofBool s.busy

end Sys2Proof.Machine
end

