-- ==== Sys2Proof/Machine/HostAccess.lean ====
section
/-! DEFINITION. Host accesses: what may be read and written, with what value, and what is refused (spec/10_state.md
R24, R25, R36, R43, R44; spec/60_exceptions.md R205, R210, R211; spec/70_reset_and_hazards.md R236, R240, R245). -/

namespace Sys2Proof.Machine

/-- A read returns a value to the host and changes nothing of the block (R69). -/
def State.answer (s : State) (a : Answer) : State := { s with seen := a :: s.seen }

/-- Acceptance of a command: `BUSY <- 1 ; PENDING <- opcode`, nothing else (R236). -/
def State.accept (s : State) (op : Byte) : State := { s with busy := true, pending := op }

/-- Whether a command runs while ERR ≠ 0: CLRERR and SRST, and no other (R210). -/
def runsOnError : Instr → Bool
  | .clrerr | .srst => true
  | .count | .build | .gencodes | .serialize | .encode | .deserialize | .decode | .compress | .decompress => false

/-- A write of CMD with BUSY = 0, judged in the order of R211: CLRERR and SRST are accepted; while ERR ≠ 0 anything else
is ignored (R210); an illegal opcode raises IllegalCommandError (R205); any other command is accepted. -/
def writeCmd (op : Byte) (s : State) : State :=
  match decode op with
  | .command i => if runsOnError i || s.err.isNone then s.accept op else s
  | .illegal _ => if s.err.isNone then s.setErr .illegalCommand else s

/-- A host read of a buffer byte: refused at or beyond the capacity (R43); at or beyond the length register any byte,
and two reads may differ, so each takes a draw (R36); below it the byte (R72). -/
def readByte (b : Buf) (i : Nat) (s : State) : Host.Outcome State Fault Refusal :=
  if s.capOf b ≤ i then .refused .indexBeyondCapacity
  else if s.lenOf b ≤ i then
    .next { s.answer (.byte (Config.freeByte s.draws i)) with draws := s.draws + 1 }
  else .next (s.answer (.byte ((s.bufOf b).get i)))

/-- A host write of a buffer byte: OUT is read-only (R35), and an index at or beyond the capacity is refused (where both
hold, the refusal names the first; log entry 11). -/
def writeByte (b : Buf) (i : Nat) (v : Byte) (s : State) : Host.Outcome State Fault Refusal :=
  if b = .out then .refused .writeOfOut
  else if s.capOf b ≤ i then .refused .indexBeyondCapacity
  else .next (s.putByte i v b)

/-- The largest value the host may write to a data register (R44); none where it may write no value (R43). -/
def State.regBound (s : State) : DataReg → Option Nat
  | .srcLen => some s.caps.srcCap
  | .tokLen => some tokCap
  | .payLen => some s.caps.payCap
  | .bitLen => some (2 ^ 64 - 1)
  | .outLen => none

/-- A host write of a data register. -/
def writeReg (r : DataReg) (v : Word) (s : State) : Host.Outcome State Fault Refusal :=
  match s.regBound r with
  | none => .refused .writeOfOutLen
  | some bound => if v.toNat ≤ bound then .next (s.setReg v r) else .refused .lengthAboveBound

/-- A host access with BUSY = 0 (R43). -/
def idleAccess (a : Access) (s : State) : Host.Outcome State Fault Refusal :=
  match a with
  | .readCmd => .refused .readOfCmd
  | .writeCmd op => .next (writeCmd op s)
  | .readStatus => .next (s.answer (.status s.status))
  | .writeStatus _ => .refused .writeOfStatus
  | .readReg r => .next (s.answer (.reg (s.getReg r)))
  | .writeReg r v => writeReg r v s
  | .readCnt x => .next (s.answer (.cnt s.cnt[x]))
  | .writeCnt x w => .next { s with cnt := s.cnt.set x w }
  | .readCode x => .next (s.answer (.code s.code[x]))
  | .writeCode _ _ => .refused .writeOfCode
  | .readByte b i => readByte b i s
  | .writeByte b i v => writeByte b i v s

/-- A host access with BUSY = 1: STATUS may be read, and everything else is refused (R237, R240). -/
def busyAccess (a : Access) (s : State) : Host.Outcome State Fault Refusal :=
  if a = .readStatus then .next (s.answer (.status s.status)) else .refused .accessWhileBusy

/-- A host access. -/
def hostAccess (a : Access) (s : State) : Host.Outcome State Fault Refusal :=
  if s.busy then busyAccess a s else idleAccess a s

end Sys2Proof.Machine
end

