-- ==== Sys2Proof/Machine/Handshake.lean ====
section
/-! DEFINITION. The command handshake and the turns of host and core (spec/00_scope.md R11, R12;
spec/70_reset_and_hazards.md R230, R236 to R240). -/

namespace Sys2Proof.Machine

/-- The end of a command: `BUSY <- 0`; PENDING is meaningless from here on and holds a free value (R41, R238). -/
def State.finish (s : State) : State :=
  { s with busy := false, pending := Config.freeOpcode s.draws, draws := s.draws + 1 }

/-- Completion: the core applies the pending command's rule to the state, all at once, and sets BUSY to 0 (R238). -/
def complete (s : State) : Host.Outcome State Fault Refusal :=
  match decode s.pending with
  | .illegal op => .fault (.pendingIsNoCommand op)
  | .command i =>
    match exec i s with
    | .next t => .next t.finish
    | .fault f => .fault f
    | .refused r => .refused r

/-- The core's turn: it completes the command in flight; with BUSY = 0 it never starts anything on its own (R12). -/
def coreTurn (s : State) : Host.Outcome State Fault Refusal :=
  if s.busy then complete s else .next s

/-- One turn (log entry 1): a host access, the core's turn, or the hardware reset, which may occur also while BUSY = 1 (R230). -/
def takeTurn : Turn → State → Host.Outcome State Fault Refusal
  | .host a, s => hostAccess a s
  | .core, s => coreTurn s
  | .reset, s => .next s.resetBlock

/-- One step: the first turn placed; with no turn left the core's, so that every command completes after finitely many
steps (R238; log entry 8) and the idle block waits (R231). -/
def advance (s : State) : Host.Outcome State Fault Refusal :=
  match s.turns with
  | [] => coreTurn s
  | t :: ts => takeTurn t { s with turns := ts }

/-- The state in which the command word `op` has been accepted and the next turn is the core's (log entry 2). -/
def State.placeCommand (s : State) (op : Byte) : State :=
  { s.accept op with turns := .core :: s.turns }

end Sys2Proof.Machine
end

