-- ==== Sys2Proof/Machine/Step.lean ====
section
/-! DEFINITION. The step function (spec/00_scope.md R11). -/

namespace Sys2Proof.Machine

/-- One host access, one command completion or one reset. -/
def step (s : State) : Host.Outcome State Fault Refusal := advance s

/-- The state whose very next step runs the command whose word is `w`.  The block fetches nothing (R22): a command
reaches it by the host's write of CMD, so the word is placed where an accepted write puts it (log entry 2). -/
def State.withFetchWord (s : State) (nbits w : Nat) : State := s.placeCommand (tableByte nbits w)

end Sys2Proof.Machine
end

