-- ==== Sys2Proof/Machine/Container.lean ====
section
/-! DEFINITION. The persisted container, which the host frames and unframes (spec/30_encoding.md R100 to R104). -/

namespace Sys2Proof.Machine

/-- The three parts of a container: the token stream, the bit-length L2 and the packed payload (R100). -/
structure Container where
  tok    : List Byte
  bitLen : Word
  pay    : List Byte
deriving DecidableEq, Repr

/-- The layout of R100: L1, the token stream, L2, the payload. -/
def frame (c : Container) : List Byte :=
  le64 (BitVec.ofNat 64 c.tok.length) ++ c.tok ++ le64 c.bitLen ++ c.pay

/-- `ContainerBytes`: what the host computes from TOK_LEN, TOK, BITLEN and PAY (R101).  R101 speaks of a state after
COMPRESS, or SERIALIZE and ENCODE, where PAY_LEN = ceil8(BITLEN).  DESIGN CHOICE: in a state with PAY_LEN below
ceil8(BITLEN) the bytes of PAY beyond PAY_LEN are those the buffer holds (log entry 16). -/
def containerBytes (s : State) : List Byte :=
  le64 s.tokLen ++ s.tokens ++ le64 s.bitLen ++ s.pay.bytes (ceil8 s.bitLen.toNat)

/-- `c[i .. i + n − 1]`. -/
def slice (c : List Byte) (i n : Nat) : List Byte := (c.drop i).take n

/-- `ContainerParse` (R102); `none` where it fails with InvalidFormatError.  Bytes after the payload are left alone
(log entry 9). -/
def containerParse (c : List Byte) : Option Container :=
  if c.length < 8 then none
  else if tokCap < u64 (slice c 0 8) then none
  else if c.length < 8 + u64 (slice c 0 8) + 8 then none
  else if c.length < 16 + u64 (slice c 0 8) + ceil8 (u64 (slice c (8 + u64 (slice c 0 8)) 8)) then none
  else some
    { tok := slice c 8 (u64 (slice c 0 8))
      bitLen := BitVec.ofNat 64 (u64 (slice c (8 + u64 (slice c 0 8)) 8))
      pay := slice c (16 + u64 (slice c 0 8)) (ceil8 (u64 (slice c (8 + u64 (slice c 0 8)) 8))) }

end Sys2Proof.Machine
end

