-- ==== Sys2Proof/Machine/HostProgram.lean ====
section
/-! DEFINITION. The notation for host programs and its pseudo-instructions, as turns of the machine
(spec/30_encoding.md R105, R106). -/

namespace Sys2Proof.Machine

/-- One line of a host program (R105).  `polls` is how many STATUS reads show BUSY = 1 before the command completes; the
spec leaves the number open (R238), so every command of a program has its own (log entry 15). -/
inductive Line where
  | load (b : Buf) (bytes : List Byte)
  | set (r : DataReg) (v : Word)
  | setw (s : Sym) (w : Word)
  | command (op : Byte) (polls : Nat)
  | readStatus
  | readReg (r : DataReg)
  | readCnt (s : Sym)
  | readCode (s : Sym)
  | readBuf (b : Buf)
deriving DecidableEq, Repr

/-- A line with the pseudo-instructions (R106).  BUILDT has one number of polls for each of its two commands. -/
inductive ProgramLine where
  | line (l : Line)
  | buildt (countPolls buildPolls : Nat)
  | clrw
  | loadc (c : List Byte)
  | storec
deriving DecidableEq, Repr

/-- The length register of a buffer, by its name. -/
def lenRegOf : Buf → DataReg
  | .src => .srcLen
  | .tok => .tokLen
  | .pay => .payLen
  | .out => .outLen

/-- Writes of `bytes[i]` to `buf[i]`, from index `i` on. -/
def writesFrom (b : Buf) : Nat → List Byte → List Turn
  | _, [] => []
  | i, v :: vs => .host (.writeByte b i v) :: writesFrom b (i + 1) vs

/-- `LOAD buf, bytes`: every byte, then the length register. -/
def loadTurns (b : Buf) (bytes : List Byte) : List Turn :=
  writesFrom b 0 bytes ++ [.host (.writeReg (lenRegOf b) (BitVec.ofNat 64 bytes.length))]

/-- A mnemonic alone: its opcode to CMD, then STATUS reads until one shows BUSY = 0.  An accepted command shows BUSY = 1
`polls` times; after a write that is ignored or illegal the first read already shows BUSY = 0 (log entries 8, 15). -/
def commandTurns (op : Byte) (polls : Nat) (s : State) : List Turn :=
  .host (.writeCmd op) ::
    if (writeCmd op s).busy then List.replicate polls (.host .readStatus) ++ [.core, .host .readStatus]
    else [.host .readStatus]

/-- `READ buf`: bytes 0 to n − 1. -/
def readTurns (b : Buf) (n : Nat) : List Turn :=
  (List.range n).map (fun i => .host (.readByte b i))

/-- The turns of one line, at the state the line starts in (a command and `READ buf` depend on it; log entry 15). -/
def lineTurns : Line → State → List Turn
  | .load b bytes, _ => loadTurns b bytes
  | .set r v, _ => [.host (.writeReg r v)]
  | .setw x w, _ => [.host (.writeCnt x w)]
  | .command op polls, s => commandTurns op polls s
  | .readStatus, _ => [.host .readStatus]
  | .readReg r, _ => [.host (.readReg r)]
  | .readCnt x, _ => [.host (.readCnt x)]
  | .readCode x, _ => [.host (.readCode x)]
  | .readBuf b, s => readTurns b (s.lenOf b)

/-- The expansion of a pseudo-instruction into lines (R106).  A LOADC whose parse fails issues nothing. -/
def expand : ProgramLine → List Line
  | .line l => [l]
  | .buildt countPolls buildPolls => [.command (encode .count) countPolls, .command (encode .build) buildPolls]
  | .clrw => (List.finRange 128).map fun x => .setw x 0
  | .loadc c =>
    match containerParse c with
    | none => []
    | some k => [.load .tok k.tok, .load .pay k.pay, .set .bitLen k.bitLen]
  | .storec => [.readReg .tokLen, .readBuf .tok, .readReg .bitLen, .readBuf .pay]

/-- Turns taken one after another, stopping at the first fault or refusal. -/
def play : List Turn → State → Host.Outcome State Fault Refusal
  | [], s => .next s
  | t :: ts, s =>
    match takeTurn t s with
    | .next s' => play ts s'
    | .fault f => .fault f
    | .refused r => .refused r

/-- Lines, one after another, each at the state the ones before it left. -/
def playLines : List Line → State → Host.Outcome State Fault Refusal
  | [], s => .next s
  | l :: ls, s =>
    match play (lineTurns l s) s with
    | .next s' => playLines ls s'
    | .fault f => .fault f
    | .refused r => .refused r

/-- A host program.  DESIGN CHOICE: after a LOADC whose parse fails the host goes on with the next line, and its own
report of InvalidFormatError leaves no trace (log entry 17). -/
def playProgram (ls : List ProgramLine) (s : State) : Host.Outcome State Fault Refusal :=
  playLines (ls.flatMap expand) s

end Sys2Proof.Machine
end

