-- ==== Sys2Proof/Machine/Relations.lean ====
section
/-! DEFINITION. The vocabulary of the statements: relations that say, without the machine's functions, what a path, a
token stream, a coded bit stream, a merge and a code table are (spec/30_encoding.md R92, R95; spec/41_tree_builder.md
R121 to R127; spec/42_code_table_generator.md R136).  No step uses them. -/

namespace Sys2Proof.Machine

/-- `p` is the root-to-leaf path of the symbol `x`: "moving to the right child appends bit `1`; moving to the left
child appends bit `0`" (R136). -/
inductive PathTo : HuffTree → List Bool → Sym → Prop
  | leaf (x : Sym) : PathTo (.leaf x) [] x
  | left {l r : HuffTree} {p : List Bool} {x : Sym} : PathTo l p x → PathTo (.node l r) (false :: p) x
  | right {l r : HuffTree} {p : List Bool} {x : Sym} : PathTo r p x → PathTo (.node l r) (true :: p) x

/-- The bits lead from the root to an internal node. -/
inductive Inside : HuffTree → List Bool → Prop
  | here (l r : HuffTree) : Inside (.node l r) []
  | left {l r : HuffTree} {p : List Bool} : Inside l p → Inside (.node l r) (false :: p)
  | right {l r : HuffTree} {p : List Bool} : Inside r p → Inside (.node l r) (true :: p)

/-- The grammar of well-formed token streams with the tree each denotes (R92); the filler is any byte. -/
inductive TokenStream : List Byte → HuffTree → Prop
  | leaf (x : Sym) : TokenStream [0x80, byteOf x, 0x81] (.leaf x)
  | node {bl br : List Byte} {l r : HuffTree} (filler : Byte) :
      TokenStream bl l → TokenStream br r →
      TokenStream ([0x80] ++ bl ++ [filler] ++ br ++ [0x81]) (.node l r)

/-- The bits are the paths of the symbols, one after another (R95). -/
inductive Coded (t : HuffTree) : List Bool → List Sym → Prop
  | nil : Coded t [] []
  | cons {p bits : List Bool} {x : Sym} {xs : List Sym} :
      PathTo t p x → Coded t bits xs → Coded t (p ++ bits) (x :: xs)

/-- The order of the queue: `x < y` of R127. -/
def Precedes (x y : QEntry) : Prop := x.w < y.w ∨ (x.w = y.w ∧ x.seq < y.seq)

/-- BUILD's loop on a set of entries, from merge number `k` on (R121, R126, R127): the least entry becomes the left
child, the least of the others the right child, until one entry is left. -/
inductive MergesTo : Nat → Multiset QEntry → HuffTree → Prop
  | root (k : Nat) (e : QEntry) : MergesTo k {e} e.node
  | merge {k : Nat} {a b : QEntry} {rest : Multiset QEntry} {t : HuffTree} :
      (∀ e ∈ b ::ₘ rest, Precedes a e) → (∀ e ∈ rest, Precedes b e) →
      MergesTo (k + 1) ({ w := a.w + b.w, seq := 128 + k, node := .node a.node b.node } ::ₘ rest) t →
      MergesTo k (a ::ₘ b ::ₘ rest) t

/-- The symbols of nonzero weight, ascending (R122). -/
def presentSymbols (cnt : Vector Word 128) : List Sym :=
  (List.finRange 128).filter (fun x => cnt[x] ≠ 0)

/-- The queue BUILD starts with: `(w = CNT[s], seq = s, node = Leaf s)` for every symbol of nonzero weight (R121). -/
def startQueue (cnt : Vector Word 128) : Multiset QEntry :=
  ((presentSymbols cnt).map fun x => ({ w := cnt[x].toNat, seq := x.val, node := .leaf x } : QEntry) : List QEntry)

/-- The total length in bits of the codes of a list of symbols. -/
def codeLength (code : Vector CodeEntry 128) (xs : List Sym) : Nat :=
  (xs.map fun x => code[x].len.toNat).sum

/-- The code table R30 asks for: the path of every leaf symbol of the tree, and every other entry absent. -/
def IsCodeTableOf (code : Vector CodeEntry 128) (t : HuffTree) : Prop :=
  (∀ p x, PathTo t p x → code[x].len.toNat = p.length ∧ entryPath code[x] = p) ∧
  (∀ x : Sym, (∀ p, ¬ PathTo t p x) → code[x] = { len := 0, bits := 0 })

end Sys2Proof.Machine
end

