-- ==== Sys2Proof/WellFormed.lean ====
section
/-! DEFINITION. Well-formedness of commands, capacities and code-table entries (spec/00_scope.md R10;
spec/10_state.md R29; spec/30_encoding.md R80, R97). -/

namespace Sys2Proof

/-- A command has no field (R80: "no register fields, no immediate fields, no mode bits"), so there is nothing to
check and every command is well formed. -/
def Instr.wf : Instr → Bool
  | .count | .build | .gencodes | .serialize | .encode | .deserialize | .decode
  | .compress | .decompress | .clrerr | .srst => true

/-- The constraints of R10 on the open parameters. -/
def Config.Caps.wf (c : Config.Caps) : Bool :=
  1 ≤ c.srcCap && c.srcCap ≤ 2 ^ 56 &&
  1 ≤ c.payCap && c.payCap ≤ 2 ^ 61 &&
  1 ≤ c.outCap && c.outCap < 2 ^ 64

/-- A legal code-table entry: LEN in 0 to 127 (R29) and every bit of BITS below the code equal to 0 (R97); with
LEN = 0 this says BITS = 0, the absent entry. -/
def CodeEntry.wf (e : CodeEntry) : Bool :=
  e.len.toNat ≤ 127 && e.bits <<< e.len.toNat == 0

end Sys2Proof
end

