-- ==== Sys2Proof/Safety.lean ====
section
/-! DEFINITION. What a good state and a good run are (spec/00_scope.md R13; spec/10_state.md R30, R36, R39, R44;
spec/70_reset_and_hazards.md R236). -/

namespace Sys2Proof.Machine

/-- The invariant of CODE and TREE (R30): every entry of CODE is absent, or TREE_VALID = 1 and CODE is the code table
of TREE. -/
def CodeMatchesTree (s : State) : Prop :=
  s.code = absentCodes ∨ (s.treeValid = true ∧ s.code = codesOf s.tree)

/-- PENDING while BUSY = 1: an accepted command, and with ERR ≠ 0 only CLRERR or SRST (R210, R236). -/
def PendingAccepted (s : State) : Prop :=
  s.busy = true → ∃ i, decode s.pending = .command i ∧ (s.err = none ∨ runsOnError i = true)

/-- The invariant every step keeps. -/
structure StateInv (s : State) : Prop where
  /-- The capacities are as R10 constrains them. -/
  caps : s.caps.wf = true
  /-- Memory is in its canonical form, within the capacities (R70). -/
  memory : Memory.wf s = true
  /-- No length register is above its bound (R44). -/
  lengths : ∀ b : Buf, s.lenOf b ≤ s.capOf b
  /-- "Whenever TREE_VALID = 1, TREE is valid" (R39). -/
  tree : s.treeValid = true → treeOk s.tree = true
  /-- R30. -/
  codes : CodeMatchesTree s
  /-- R210, R236. -/
  pending : PendingAccepted s

/-- Whether a turn is a host access. -/
def Turn.isHost : Turn → Bool
  | .host _ => true
  | .core | .reset => false

/-- A run has ended when the host has issued its last access and BUSY = 0 (R13): turns of the core, and hardware resets,
may still be placed, and are no part of the run (log entry 18). -/
def Ended (s : State) : Bool := s.turns.all (fun t => !t.isHost) && !s.busy

/-- At most `n` steps, stopping where the run has ended. -/
def runToEnd : Nat → State → Host.Outcome State Fault Refusal
  | 0, s => .next s
  | n + 1, s =>
    if Ended s then .next s
    else
      match step s with
      | .next t => runToEnd n t
      | .fault f => .fault f
      | .refused r => .refused r

/-- How the run of the host program placed in a state ends.  Every step takes a turn, and after the last turn one step
completes the command in flight, so that many steps are enough. -/
def endOfRun (s : State) : Host.Outcome State Fault Refusal := runToEnd (s.turns.length + 1) s

/-- The run of the host program placed in a state has gone wrong when ERR ≠ 0 at its end, or when the host made an access
the spec refuses (R13).  An error that CLRERR, SRST or a reset clears before the end does not count.  (The fault is met by
no run: log entry 12.) -/
def goneWrong (s : State) : Bool :=
  match endOfRun s with
  | .next t => t.err.isSome
  | .fault _ => true
  | .refused _ => true

end Sys2Proof.Machine
end

