-- ==== Sys2Proof/Certificates/Slice0/Obligations.lean ====
section
/-! DEFINITION. The statements for the provers, and what they say a failing command loses, which errors a command may
raise, and when two states agree. -/

namespace Sys2Proof.Machine

/-- Failure of BUILD or DESERIALIZE (R129, R156): the tree is lost, CODE absent, ERR set, and nothing else changes
(what TREE holds is unspecified, R39; `draws` is the model's count of free values). -/
def LosesTree (i : Instr) (s : State) (e : ErrKind) : Prop :=
  ∃ t, exec i s = .next t ∧
    t = { s with tree := t.tree, treeValid := false, code := absentCodes, err := some e, draws := t.draws }

/-- Failure of ENCODE (R169). -/
def LosesPayload (s : State) (e : ErrKind) : Prop :=
  ∃ t, exec .encode s = .next t ∧
    t = { s with pay := t.pay, payLen := 0, bitLen := 0, err := some e, draws := t.draws }

/-- Failure of DECODE (R180). -/
def LosesOutput (s : State) (e : ErrKind) : Prop :=
  ∃ t, exec .decode s = .next t ∧ t = { s with out := t.out, outLen := 0, err := some e, draws := t.draws }

/-- Failure of COMPRESS (R185, R187). -/
def LosesCompressed (s : State) (e : ErrKind) : Prop :=
  ∃ t, exec .compress s = .next t ∧
    t = { s with
          cnt := Vector.replicate 128 0, tree := t.tree, treeValid := false, code := absentCodes
          pay := t.pay, payLen := 0, bitLen := 0, tok := t.tok, tokLen := 0, err := some e, draws := t.draws }

/-- Failure of DECOMPRESS (R188, R190). -/
def LosesDecompressed (s : State) (e : ErrKind) : Prop :=
  ∃ t, exec .decompress s = .next t ∧
    t = { s with
          tree := t.tree, treeValid := false, code := absentCodes, out := t.out, outLen := 0
          err := some e, draws := t.draws }

/-- The error kinds a command can raise: its row of R208. -/
def mayRaise : Instr → List ErrKind
  | .count => [.symbolRange]
  | .build => [.emptyInput, .singleSymbol, .capacity]
  | .gencodes => [.sequence]
  | .serialize => [.sequence]
  | .encode => [.unknownSymbol, .capacity]
  | .deserialize => [.invalidFormat]
  | .decode => [.invalidFormat, .sequence, .capacity]
  | .compress => [.emptyInput, .singleSymbol, .symbolRange, .capacity]
  | .decompress => [.invalidFormat, .capacity]
  | .clrerr | .srst => []

/-- Two states that agree on everything a command may read: they may differ in the buffer bytes at and beyond the
length registers (R36), in TREE when TREE_VALID = 0 (R39), and in the handshake and the host's side. -/
structure Agree (s t : State) : Prop where
  caps : s.caps = t.caps
  treeValid : s.treeValid = t.treeValid
  err : s.err = t.err
  regs : ∀ r, s.getReg r = t.getReg r
  cnt : s.cnt = t.cnt
  code : s.code = t.code
  draws : s.draws = t.draws
  bytes : ∀ b i, i < s.lenOf b → (s.bufOf b).get i = (t.bufOf b).get i
  tree : s.treeValid = true → s.tree = t.tree

end Sys2Proof.Machine

open Sys2Proof Sys2Proof.Machine

/-! ### Reset, invariants and whole-machine rules -/

/-- R45: "After reset … and after SRST the state is" the table; the items it calls unspecified have no value to
state, and every length is 0. -/
def Obligations.ResetGivesTheTableOfR45 : Prop :=
  ∀ s : State, ∃ t, exec .srst s = .next t ∧
    ∀ u, u = State.reset ∨ u = t →
      u.busy = false ∧ u.treeValid = false ∧ u.err = none ∧ u.status = 0 ∧ (∀ r, u.getReg r = 0) ∧
      (∀ x : Sym, u.cnt[x] = 0) ∧ (∀ x : Sym, u.code[x] = { len := 0, bits := 0 })

/-- The invariant holds at reset, with any capacities R10 allows and any turns placed. -/
def Obligations.ResetSatisfiesTheInvariant : Prop :=
  ∀ (caps : Config.Caps) (turns : List Turn), caps.wf = true →
    StateInv { State.reset with caps := caps, turns := turns }

/-- Every step keeps the invariant: legal capacities, memory in canonical form, lengths within the capacities (R44), a
valid tree whenever TREE_VALID = 1 (R39), CODE absent or that of the tree (R30), PENDING an accepted command (R236). -/
def Obligations.StepKeepsTheInvariant : Prop :=
  ∀ s t : State, StateInv s → step s = .next t → StateInv t

/-- R30, of every state of every run: for every host program, placed as turns at reset (log entry 2), and all
capacities. -/
def Obligations.CodeIsAbsentOrThatOfTheTreeInEveryRun : Prop :=
  ∀ (caps : Config.Caps) (turns : List Turn) (n : Nat) (t : State), caps.wf = true →
    Sys2Proof.core.run n ({ State.reset with caps := caps, turns := turns } : State) = .next t →
    (∀ x : Sym, t.code[x] = { len := 0, bits := 0 }) ∨ (t.treeValid = true ∧ IsCodeTableOf t.code t.tree)

/-- R39, of every state of every run: whenever TREE_VALID = 1 the tree is a `Node` with unique leaf symbols, N leaves
and N − 1 internal nodes with 2 ≤ N ≤ 128, and its height is at most 127. -/
def Obligations.ValidTreeInEveryRun : Prop :=
  ∀ (caps : Config.Caps) (turns : List Turn) (n : Nat) (t : State), caps.wf = true →
    Sys2Proof.core.run n ({ State.reset with caps := caps, turns := turns } : State) = .next t →
    t.treeValid = true →
    (∃ l r, t.tree = .node l r) ∧ (leaves t.tree).Nodup ∧
    2 ≤ (leaves t.tree).length ∧ (leaves t.tree).length ≤ 128 ∧
    internalNodes t.tree + 1 = (leaves t.tree).length ∧ internalNodes t.tree + (leaves t.tree).length ≤ 255 ∧
    height t.tree ≤ 127

/-- "Nothing in the block is stuck": from a state that meets the invariant a step answers a next state, unless the turn
is a host access that is refused. -/
def Obligations.OnlyAHostAccessStopsAStep : Prop :=
  ∀ s : State, StateInv s →
    (∃ t, step s = .next t) ∨
    (∃ a ts r, s.turns = .host a :: ts ∧ hostAccess a { s with turns := ts } = .refused r ∧ step s = .refused r)

/-- R210, R212: ERR, once set, keeps its code, and returns to 0 only by CLRERR, SRST or the hardware reset. -/
def Obligations.ErrKeepsItsFirstCode : Prop :=
  ∀ (s t : State) (e : ErrKind), StateInv s → s.err = some e → step s = .next t →
    t.err = some e ∨
    (t.err = none ∧
      ((∃ ts, s.turns = .reset :: ts) ∨
       (s.busy = true ∧ (decode s.pending = .command .clrerr ∨ decode s.pending = .command .srst))))

/-- R40: a valid TREE is never changed in place: a step keeps it and TREE_VALID, unless it is a hardware reset, or the
core's turn (also the one taken when no turn is left) and completes BUILD, DESERIALIZE, COMPRESS, DECOMPRESS or SRST. -/
def Obligations.OnlyFiveCommandsReplaceAValidTree : Prop :=
  ∀ s t : State, s.treeValid = true → step s = .next t →
    (t.treeValid = true ∧ t.tree = s.tree) ∨ (∃ ts, s.turns = .reset :: ts) ∨
    (s.busy = true ∧ (s.turns = [] ∨ ∃ ts, s.turns = .core :: ts) ∧ ∃ i, decode s.pending = .command i ∧
      i ∈ [Instr.build, .deserialize, .compress, .decompress, .srst])

/-- The `written by` column of R60, and R21, R32: what each command leaves alone.  `caps`, BUSY, PENDING and the host's
side are no command's to write (SRST apart). -/
def Obligations.CommandsWriteOnlyTheirOwnSpaces : Prop :=
  ∀ (i : Instr) (s t : State), i ≠ .srst → exec i s = .next t →
    (t.src = s.src ∧ t.srcLen = s.srcLen) ∧
    (i ∉ [Instr.count, .compress] → t.cnt = s.cnt) ∧
    (i ∉ [Instr.build, .gencodes, .deserialize, .compress, .decompress] → t.code = s.code) ∧
    (i ∉ [Instr.build, .deserialize, .compress, .decompress] → t.tree = s.tree ∧ t.treeValid = s.treeValid) ∧
    (i ∉ [Instr.serialize, .compress] → t.tok = s.tok ∧ t.tokLen = s.tokLen) ∧
    (i ∉ [Instr.encode, .compress] → t.pay = s.pay ∧ t.payLen = s.payLen ∧ t.bitLen = s.bitLen) ∧
    (i ∉ [Instr.decode, .decompress] → t.out = s.out ∧ t.outLen = s.outLen) ∧
    (t.caps = s.caps ∧ t.busy = s.busy ∧ t.pending = s.pending ∧ t.turns = s.turns ∧ t.seen = s.seen)

/-- A command's result depends on nothing but the meaningful bytes, the registers, the tables and a valid tree: two
states that agree there give states that agree there again (R36, R39, R70). -/
def Obligations.CommandsReadOnlyMeaningfulState : Prop :=
  ∀ (i : Instr) (s t s' t' : State), Agree s t → exec i s = .next s' → exec i t = .next t' → Agree s' t'

/-- R208: a command raises only errors of its row, and each error of its row in some state. -/
def Obligations.CommandsRaiseTheErrorsOfTheirRow : Prop :=
  (∀ (i : Instr) (s t : State), s.err = none → exec i s = .next t →
    t.err = none ∨ ∃ e ∈ mayRaise i, t.err = some e) ∧
  (∀ (i : Instr) (e : ErrKind), e ∈ mayRaise i →
    ∃ s t, s.err = none ∧ exec i s = .next t ∧ t.err = some e)

/-! ### Encoding -/

/-- The opcode map of R81, its words written out. -/
def Obligations.OpcodeWordsOfTheMap : Prop :=
  decode 0x01 = .command .count ∧ decode 0x02 = .command .build ∧ decode 0x03 = .command .gencodes ∧
  decode 0x04 = .command .serialize ∧ decode 0x05 = .command .encode ∧ decode 0x06 = .command .deserialize ∧
  decode 0x07 = .command .decode ∧ decode 0x08 = .command .compress ∧ decode 0x09 = .command .decompress ∧
  decode 0x0E = .command .clrerr ∧ decode 0x0F = .command .srst

/-- Each word has one meaning and each command one word. -/
def Obligations.DecodeAndEncodeAgree : Prop :=
  ∀ (i : Instr) (op : Byte), decode op = .command i ↔ op = encode i

/-- R83: the 245 other values are illegal, each by its own value; accepted with BUSY = 0 and ERR = 0, such a write
raises IllegalCommandError and changes nothing else. -/
def Obligations.IllegalOpcodesRaiseIllegalCommand : Prop :=
  ∀ op : Byte, (op = 0 ∨ (0x0A ≤ op.toNat ∧ op.toNat ≤ 0x0D) ∨ 0x10 ≤ op.toNat) →
    decode op = .illegal op ∧
    ∀ s : State, s.busy = false → s.err = none →
      hostAccess (.writeCmd op) s = .next { s with err := some .illegalCommand }

/-! ### Handshake, turns and host accesses -/

/-- R211: a write of CMD is judged in this order. -/
def Obligations.CmdWriteIsJudgedInOrder : Prop :=
  ∀ (s : State) (op : Byte),
    (s.busy = true → hostAccess (.writeCmd op) s = .refused .accessWhileBusy) ∧
    (s.busy = false → op = 0x0E ∨ op = 0x0F →
      hostAccess (.writeCmd op) s = .next { s with busy := true, pending := op }) ∧
    (s.busy = false → op ≠ 0x0E → op ≠ 0x0F → s.err ≠ none → hostAccess (.writeCmd op) s = .next s) ∧
    (s.busy = false → s.err = none → decode op = .illegal op →
      hostAccess (.writeCmd op) s = .next { s with err := some .illegalCommand }) ∧
    (s.busy = false → s.err = none → ∀ i, decode op = .command i →
      hostAccess (.writeCmd op) s = .next { s with busy := true, pending := op })

/-- A step runs the command in flight: on the core's turn, or with no turn left, it is `exec` of the decoded PENDING,
after which BUSY is 0 (R238).  That PENDING is then a free draw, and when the core's turn comes, is the model's choice
(log entries 6, 8). -/
def Obligations.StepRunsThePendingCommand : Prop :=
  ∀ (s t : State) (i : Instr) (ts : List Turn), s.busy = true → decode s.pending = .command i →
    (s.turns = .core :: ts ∨ (s.turns = [] ∧ ts = [])) → exec i { s with turns := ts } = .next t →
    step s = .next { t with busy := false, pending := Config.freeOpcode t.draws, draws := t.draws + 1 }

/-- Placing a command word makes the very next step run it: the model's own interface (log entry 2). -/
def Obligations.PlacedCommandRunsNext : Prop :=
  ∀ (s t : State) (i : Instr),
    exec i { s with busy := true, pending := encode i } = .next t →
    decodeTableWord 8 (encode i).toNat = some i ∧
    step (s.withFetchWord 8 (encode i).toNat) =
      .next { t with busy := false, pending := Config.freeOpcode t.draws, draws := t.draws + 1 }

/-- R237, R238: however often the host polls, each STATUS read shows BUSY = 1 with TREE_VALID and ERR as before the
command and changes nothing else, and one step after the last poll BUSY is 0.  That the core's turn comes when no turn
is left is the model's choice (log entry 8). -/
def Obligations.EveryAcceptedCommandCompletes : Prop :=
  ∀ (s : State) (n : Nat), StateInv s → s.busy = true → s.turns = List.replicate n (.host .readStatus) →
    Sys2Proof.core.run n s =
      .next { s with turns := [], seen := List.replicate n (.status s.status) ++ s.seen } ∧
    ∃ t, Sys2Proof.core.run (n + 1) s = .next t ∧ t.busy = false

/-- R245: exactly these host accesses are refused. -/
def Obligations.RefusedAccessesAreThoseOfR245 : Prop :=
  ∀ (s : State) (a : Access), (∃ r, hostAccess a s = .refused r) ↔
    ((s.busy = true ∧ a ≠ .readStatus) ∨
     (s.busy = false ∧
      (a = .readCmd ∨ (∃ v, a = .writeStatus v) ∨ (∃ v, a = .writeReg .outLen v) ∨
       (∃ x e, a = .writeCode x e) ∨ (∃ i v, a = .writeByte .out i v) ∨
       (∃ b i, a = .readByte b i ∧ s.capOf b ≤ i) ∨ (∃ b i v, a = .writeByte b i v ∧ s.capOf b ≤ i) ∨
       (∃ v, a = .writeReg .srcLen v ∧ s.caps.srcCap < v.toNat) ∨
       (∃ v, a = .writeReg .tokLen v ∧ 765 < v.toNat) ∨
       (∃ v, a = .writeReg .payLen v ∧ s.caps.payCap < v.toNat))))

/-- R43, R44: a legal host write of a data register or a CNT entry changes that item only, and stores the value
exactly. -/
def Obligations.RegisterWritesStoreExactly : Prop :=
  ∀ s : State, s.busy = false →
    (∀ (r : DataReg) (v : Word) (bound : Nat), s.regBound r = some bound → v.toNat ≤ bound →
      ∃ t, hostAccess (.writeReg r v) s = .next t ∧ t.getReg r = v ∧ (∀ r', r' ≠ r → t.getReg r' = s.getReg r') ∧
        t = { s with srcLen := t.srcLen, tokLen := t.tokLen, payLen := t.payLen, bitLen := t.bitLen }) ∧
    (∀ (x : Sym) (w : Word), ∃ t, hostAccess (.writeCnt x w) s = .next t ∧ t.cnt[x] = w ∧
      (∀ y : Sym, y ≠ x → t.cnt[y] = s.cnt[y]) ∧ t = { s with cnt := t.cnt })

/-- R43, R44, R72: a legal host write of a byte changes that byte only, and a read of it, once the length register
covers it, returns the value written. -/
def Obligations.ByteWritesStoreExactly : Prop :=
  ∀ (s : State) (b : Buf) (i : Nat) (v : Byte), s.busy = false → b ≠ .out → i < s.capOf b →
    ∃ t, hostAccess (.writeByte b i v) s = .next t ∧
      (∀ b' j, (b' ≠ b ∨ j ≠ i) → (t.bufOf b').get j = (s.bufOf b').get j) ∧
      t = { s with src := t.src, tok := t.tok, pay := t.pay } ∧
      ∀ u : State, u.busy = false → u.caps = t.caps → u.bufOf b = t.bufOf b → i < u.lenOf b →
        hostAccess (.readByte b i) u = .next { u with seen := .byte v :: u.seen }

/-- R36: a read at or beyond the length register returns a free value, a new one at each read (the model's form of
"any byte, and two reads may differ": log entry 4). -/
def Obligations.ReadsBeyondTheLengthAreFree : Prop :=
  ∀ (s : State) (b : Buf) (i : Nat), s.busy = false → s.lenOf b ≤ i → i < s.capOf b →
    hostAccess (.readByte b i) s =
      .next { s with seen := .byte (Config.freeByte s.draws i) :: s.seen, draws := s.draws + 1 }

/-- R44, R69, R72: every read is free of side effects (the model's own record of what the host has read, and its count
of free values, apart: log entry 10), and with BUSY = 0 it returns the value of the item: of a data register, of a CNT
or CODE entry, and of the byte of a buffer below its length register, whoever wrote it. -/
def Obligations.ReadsHaveNoSideEffect : Prop :=
  (∀ (s t : State) (a : Access),
    (a = .readStatus ∨ (∃ r, a = .readReg r) ∨ (∃ x, a = .readCnt x) ∨ (∃ x, a = .readCode x) ∨
     (∃ b i, a = .readByte b i)) →
    hostAccess a s = .next t → ∃ v, t = { s with seen := v :: s.seen, draws := t.draws }) ∧
  (∀ s : State, s.busy = false →
    hostAccess (.readReg .srcLen) s = .next { s with seen := .reg s.srcLen :: s.seen } ∧
    hostAccess (.readReg .tokLen) s = .next { s with seen := .reg s.tokLen :: s.seen } ∧
    hostAccess (.readReg .payLen) s = .next { s with seen := .reg s.payLen :: s.seen } ∧
    hostAccess (.readReg .bitLen) s = .next { s with seen := .reg s.bitLen :: s.seen } ∧
    hostAccess (.readReg .outLen) s = .next { s with seen := .reg s.outLen :: s.seen } ∧
    (∀ x : Sym, hostAccess (.readCnt x) s = .next { s with seen := .cnt s.cnt[x] :: s.seen }) ∧
    (∀ x : Sym, hostAccess (.readCode x) s = .next { s with seen := .code s.code[x] :: s.seen }) ∧
    (∀ (i : Nat) (v : Byte), i < s.caps.srcCap → s.source[i]? = some v →
      hostAccess (.readByte .src i) s = .next { s with seen := .byte v :: s.seen }) ∧
    (∀ (i : Nat) (v : Byte), i < 765 → s.tokens[i]? = some v →
      hostAccess (.readByte .tok i) s = .next { s with seen := .byte v :: s.seen }) ∧
    (∀ (i : Nat) (v : Byte), i < s.caps.payCap → (s.pay.bytes s.payLen.toNat)[i]? = some v →
      hostAccess (.readByte .pay i) s = .next { s with seen := .byte v :: s.seen }) ∧
    (∀ (i : Nat) (v : Byte), i < s.caps.outCap → s.output[i]? = some v →
      hostAccess (.readByte .out i) s = .next { s with seen := .byte v :: s.seen }))

/-- R25, R26: the layout of STATUS; ERR is 0 to 8 and the reserved bits read 0. -/
def Obligations.StatusLayout : Prop :=
  ∀ s : State,
    s.status.getLsbD 0 = s.busy ∧ s.status.getLsbD 1 = s.treeValid ∧ s.status.extractLsb' 2 2 = 0 ∧
    (s.status.extractLsb' 4 4).toNat ≤ 8 ∧ s.status.extractLsb' 8 24 = 0 ∧
    (s.status.extractLsb' 4 4 = 0 ↔ s.err = none) ∧
    (s.busy = false → hostAccess .readStatus s = .next { s with seen := .status s.status :: s.seen })

/-- R200: the codes of the eight kinds, as STATUS shows them. -/
def Obligations.ErrorCodesOfR200 : Prop :=
  ∀ s : State, s.err.map (fun _ => (s.status.extractLsb' 4 4).toNat) =
    s.err.map (fun e => match e with
      | .emptyInput => 1 | .singleSymbol => 2 | .unknownSymbol => 3 | .invalidFormat => 4
      | .symbolRange => 5 | .sequence => 6 | .illegalCommand => 7 | .capacity => 8)

/-- R230: the hardware reset acts in every state, also while BUSY = 1, and has exactly the effect of SRST (R193).  The
reset is a turn, and capacities, later turns and what the host has read stay: the model's choice (log entries 1, 3,
10). -/
def Obligations.HardwareResetActsAtAnyTime : Prop :=
  ∀ (s : State) (ts : List Turn), s.turns = .reset :: ts →
    ∃ t, step s = .next t ∧ exec .srst { s with turns := ts } = .next t ∧
      t.busy = false ∧ t.err = none ∧ t.treeValid = false ∧ (∀ r, t.getReg r = 0) ∧
      t.cnt = Vector.replicate 128 0 ∧ t.code = absentCodes ∧ t.caps = s.caps ∧ t.turns = ts ∧ t.seen = s.seen

/-- R105: LOAD leaves the bytes in the buffer and their number in its length register, and touches nothing else. -/
def Obligations.LoadFillsTheBuffer : Prop :=
  ∀ (s : State) (b : Buf) (bytes : List Byte), s.busy = false → s.caps.wf = true → b ≠ .out →
    bytes.length ≤ s.capOf b →
    ∃ t, play (loadTurns b bytes) s = .next t ∧ t.lenOf b = bytes.length ∧ (t.bufOf b).bytes bytes.length = bytes ∧
      (∀ b', b' ≠ b → t.bufOf b' = s.bufOf b' ∧ t.lenOf b' = s.lenOf b') ∧
      t = { s with src := t.src, tok := t.tok, pay := t.pay, srcLen := t.srcLen, tokLen := t.tokLen,
                   payLen := t.payLen }

/-! ### COUNT -/

/-- R110, R111, R114: COUNT overwrites CNT with the number of occurrences of each symbol, their sum is SRC_LEN, and
nothing else changes. -/
def Obligations.CountTalliesEverySymbol : Prop :=
  ∀ (s : State) (xs : List Sym), s.source = xs.map byteOf →
    ∃ t, exec .count s = .next t ∧ (∀ x : Sym, t.cnt[x].toNat = xs.count x) ∧
      ∑ x : Sym, t.cnt[x].toNat = s.srcLen.toNat ∧ t = { s with cnt := t.cnt }

/-- R112, R113: a source byte of 128 or more makes COUNT raise SymbolRangeError; every count is 0 and nothing else
changes. -/
def Obligations.CountRejectsBytesOutOfRange : Prop :=
  ∀ (s : State) (b : Byte), b ∈ s.source → 128 ≤ b.toNat →
    exec .count s = .next { s with cnt := Vector.replicate 128 0, err := some .symbolRange }

/-! ### BUILD -/

/-- R127: `extractMin` removes and returns the least entry. -/
def Obligations.ExtractMinTakesTheLeastEntry : Prop :=
  ∀ (x : QEntry) (xs : List QEntry),
    ((extractMin x xs).1 :: (extractMin x xs).2).Perm (x :: xs) ∧
    ∀ e ∈ (extractMin x xs).2, ¬ Precedes e (extractMin x xs).1

/-- R121, R122, R126, R127: with two or more nonzero entries whose sum is below 2^64, BUILD stores the tree of the merge
loop, with TREE_VALID = 1 and CODE absent, and changes nothing else. -/
def Obligations.BuildRunsTheMergeLoop : Prop :=
  ∀ s : State, 2 ≤ (presentSymbols s.cnt).length → ∑ x : Sym, s.cnt[x].toNat < 2 ^ 64 →
    ∃ t, exec .build s = .next t ∧ MergesTo 0 (startQueue s.cnt) t.tree ∧
      t = { s with tree := t.tree, treeValid := true, code := Vector.replicate 128 { len := 0, bits := 0 } }

/-- R128: the leaves of the tree BUILD makes are exactly the symbols of nonzero weight, each once; it has N − 1 internal
nodes and is valid. -/
def Obligations.BuiltTreeHasThePresentSymbols : Prop :=
  ∀ s t : State, 2 ≤ (presentSymbols s.cnt).length → ∑ x : Sym, s.cnt[x].toNat < 2 ^ 64 →
    exec .build s = .next t →
    (leaves t.tree).Perm (presentSymbols s.cnt) ∧
    internalNodes t.tree = (presentSymbols s.cnt).length - 1 ∧ treeOk t.tree = true ∧ t.treeValid = true

/-- R123, R124, R125, R129: when BUILD raises each error, and what it leaves. -/
def Obligations.BuildErrors : Prop :=
  ∀ s : State,
    ((∀ x : Sym, s.cnt[x] = 0) → LosesTree .build s .emptyInput) ∧
    (∀ y : Sym, s.cnt[y] ≠ 0 → (∀ x : Sym, x ≠ y → s.cnt[x] = 0) → LosesTree .build s .singleSymbol) ∧
    (∀ x y : Sym, x ≠ y → s.cnt[x] ≠ 0 → s.cnt[y] ≠ 0 → 2 ^ 64 ≤ ∑ z : Sym, s.cnt[z].toNat →
      LosesTree .build s .capacity)

/-! ### GENCODES -/

/-- R135, R136, R97: GENCODES gives every leaf symbol its root-to-leaf path, left-aligned in BITS with all lower bits 0,
makes every other entry absent, and changes nothing else. -/
def Obligations.GencodesGivesEveryLeafItsPath : Prop :=
  ∀ s : State, s.treeValid = true → treeOk s.tree = true →
    ∃ t, exec .gencodes s = .next t ∧ t = { s with code := t.code } ∧
      (∀ p x, PathTo s.tree p x →
        t.code[x].len.toNat = p.length ∧
        (∀ j (h : j < p.length), t.code[x].bits.getLsbD (127 - j) = p[j]) ∧
        (∀ j, j + p.length < 128 → t.code[x].bits.getLsbD j = false)) ∧
      (∀ x : Sym, x ∉ leaves s.tree → t.code[x] = { len := 0, bits := 0 })

/-- R138: every leaf symbol gets 1 ≤ LEN ≤ 127, every other symbol is absent, and no symbol's code is a prefix of
another's. -/
def Obligations.CodeTableIsPrefixFree : Prop :=
  ∀ s t : State, s.treeValid = true → treeOk s.tree = true → exec .gencodes s = .next t →
    (∀ x ∈ leaves s.tree, 1 ≤ t.code[x].len.toNat ∧ t.code[x].len.toNat ≤ 127) ∧
    (∀ x : Sym, x ∉ leaves s.tree → t.code[x].len = 0 ∧ t.code[x].bits = 0) ∧
    (∀ x ∈ leaves s.tree, ∀ y ∈ leaves s.tree, x ≠ y → ¬ entryPath t.code[x] <+: entryPath t.code[y])

/-- R139, R146: without a valid tree GENCODES and SERIALIZE raise SequenceError and leave what their failure rules
say. -/
def Obligations.CommandsThatNeedATreeRaiseSequence : Prop :=
  ∀ s : State, s.treeValid = false →
    exec .gencodes s = .next { s with code := absentCodes, err := some .sequence } ∧
    ∃ t, exec .serialize s = .next t ∧
      t = { s with tok := t.tok, tokLen := 0, err := some .sequence, draws := t.draws }

/-! ### SERIALIZE and DESERIALIZE -/

/-- R91, R92: the format of `Ser`, and that every `Ser(t)` is a well-formed token stream of `t`. -/
def Obligations.SerIsAWellFormedStream : Prop :=
  (∀ x : Sym, ser (.leaf x) = [0x80, byteOf x, 0x81]) ∧
  (∀ l r : HuffTree, ser (.node l r) = [0x80] ++ ser l ++ [0xFF] ++ ser r ++ [0x81]) ∧
  (∀ t : HuffTree, TokenStream (ser t) t)

/-- R93, R147: the length 6 N − 3 of the stream of N leaves, 9 to 765 for a valid tree, and how often each marker and
the filler occur. -/
def Obligations.SerLengthAndMarkers : Prop :=
  ∀ t : HuffTree,
    (ser t).length + 3 = 6 * (leaves t).length ∧
    (ser t).count 0xFF = (leaves t).length - 1 ∧
    (ser t).count 0x80 = 2 * (leaves t).length - 1 ∧
    (ser t).count 0x81 = 2 * (leaves t).length - 1 ∧
    (ser t).filter (fun b => b.toNat < 0x80) = (leaves t).map byteOf ∧
    (treeOk t = true → 9 ≤ (ser t).length ∧ (ser t).length ≤ 765)

/-- R145: SERIALIZE writes `Ser(TREE)` to TOK from index 0 and its length to TOK_LEN, and changes nothing else. -/
def Obligations.SerializeWritesTheTokenStream : Prop :=
  ∀ s : State, s.treeValid = true → treeOk s.tree = true →
    ∃ t, exec .serialize s = .next t ∧ t.tokens = ser s.tree ∧
      t.tokLen.toNat = 6 * (leaves s.tree).length - 3 ∧ t.tokLen.toNat ≤ 765 ∧
      t = { s with tok := t.tok, tokLen := t.tokLen, draws := t.draws }

/-- R150 to R154: DESERIALIZE accepts a stream of the grammar that denotes a valid tree, whatever its filler bytes, and
stores that tree. -/
def Obligations.DeserializeAcceptsTheGrammar : Prop :=
  ∀ (s : State) (t : HuffTree), TokenStream s.tokens t → treeOk t = true →
    exec .deserialize s = .next { s with tree := t, treeValid := true, code := absentCodes }

/-- R152, R153, R154, R156: every other stream raises InvalidFormatError and the tree is lost. -/
def Obligations.DeserializeRejectsEverythingElse : Prop :=
  ∀ s : State, (∀ t, TokenStream s.tokens t → treeOk t = false) → LosesTree .deserialize s .invalidFormat

/-- R92, R94: a token stream denotes one tree, and no token stream is a proper prefix of another. -/
def Obligations.TokenStreamsAreSelfDelimiting : Prop :=
  ∀ (b c : List Byte) (t u : HuffTree), TokenStream b t → TokenStream c u → b <+: c → b = c ∧ t = u

/-- R158: DESERIALIZE of what SERIALIZE wrote gives the tree back; SERIALIZE after an accepted stream writes it with
every filler byte replaced by 0xFF and every other byte as it was. -/
def Obligations.SerializeAndDeserializeRoundTrip : Prop :=
  (∀ s : State, s.treeValid = true → treeOk s.tree = true →
    ∃ t, exec .serialize s = .next t ∧ exec .deserialize t = .next { t with code := absentCodes } ∧
      t.tree = s.tree ∧ t.treeValid = true) ∧
  (∀ (s : State) (tr : HuffTree), TokenStream s.tokens tr → treeOk tr = true →
    ∃ t u : State, exec .deserialize s = .next t ∧ exec .serialize t = .next u ∧ u.tokens = ser tr ∧
      u.tokens.length = s.tokens.length ∧
      ∀ i : Nat, u.tokens[i]? = s.tokens[i]? ∨ u.tokens[i]? = some 0xFF)

/-! ### ENCODE -/

/-- R165, R170, R96, R66: when every source byte has a code and the packed bytes fit PAY, ENCODE writes the codes of the
source in order, BITLEN is the sum of their lengths, PAY_LEN = ceil8(BITLEN), the padding bits are 0, and nothing else
changes. -/
def Obligations.EncodePacksTheCodesOfTheSource : Prop :=
  ∀ (s : State) (xs : List Sym), s.caps.wf = true → s.srcLen.toNat ≤ s.caps.srcCap →
    s.source = xs.map byteOf → (∀ x ∈ xs, s.code[x].len ≠ 0) → (codeLength s.code xs + 7) / 8 ≤ s.caps.payCap →
    ∃ t, exec .encode s = .next t ∧
      t.bitLen.toNat = codeLength s.code xs ∧ t.payLen.toNat = (codeLength s.code xs + 7) / 8 ∧
      t.payloadBits = xs.flatMap (fun x => entryPath s.code[x]) ∧
      (∀ i, codeLength s.code xs ≤ i → i < 8 * t.payLen.toNat → streamBit t.pay i = false) ∧
      t = { s with pay := t.pay, payLen := t.payLen, bitLen := t.bitLen, draws := t.draws }

/-- R167, R168, R169: the first source byte at which a check fails decides: an unknown symbol before the capacity. -/
def Obligations.EncodeRaisesAtTheFirstFailingByte : Prop :=
  ∀ (s : State) (xs : List Sym) (b : Byte) (rest : List Byte), s.source = xs.map byteOf ++ b :: rest →
    (∀ x ∈ xs, s.code[x].len ≠ 0) → (codeLength s.code xs + 7) / 8 ≤ s.caps.payCap →
    ((128 ≤ b.toNat ∨ (∃ x, b = byteOf x ∧ s.code[x].len = 0)) → LosesPayload s .unknownSymbol) ∧
    (∀ x, b = byteOf x → s.code[x].len ≠ 0 →
      s.caps.payCap < (codeLength s.code xs + s.code[x].len.toNat + 7) / 8 → LosesPayload s .capacity)

/-! ### DECODE -/

/-- R175: when the payload is there and its bits are the paths of symbols that fit OUT, DECODE writes those symbols to OUT
and their number to OUT_LEN, and changes nothing else. -/
def Obligations.DecodeEmitsTheCodedSymbols : Prop :=
  ∀ (s : State) (xs : List Sym), s.treeValid = true → isNode s.tree = true →
    (s.bitLen.toNat + 7) / 8 ≤ s.payLen.toNat → Coded s.tree s.payloadBits xs → xs.length ≤ s.caps.outCap →
    s.caps.wf = true →
    ∃ t, exec .decode s = .next t ∧ t.outLen.toNat = xs.length ∧ t.output = xs.map byteOf ∧
      t = { s with out := t.out, outLen := t.outLen, draws := t.draws }

/-- R176 to R180: when DECODE raises each error, in the order of its checks, and what it leaves. -/
def Obligations.DecodeErrors : Prop :=
  ∀ s : State,
    (s.treeValid = false → LosesOutput s .sequence) ∧
    (s.treeValid = true → s.payLen.toNat < (s.bitLen.toNat + 7) / 8 → LosesOutput s .invalidFormat) ∧
    (∀ xs bits cut, s.treeValid = true → isNode s.tree = true → (s.bitLen.toNat + 7) / 8 ≤ s.payLen.toNat →
      s.payloadBits = bits ++ cut → Coded s.tree bits xs → xs.length ≤ s.caps.outCap → cut ≠ [] →
      Inside s.tree cut → LosesOutput s .invalidFormat) ∧
    (∀ xs bits p x rest, s.treeValid = true → isNode s.tree = true → (s.bitLen.toNat + 7) / 8 ≤ s.payLen.toNat →
      s.payloadBits = bits ++ p ++ rest → Coded s.tree bits xs → xs.length = s.caps.outCap → PathTo s.tree p x →
      LosesOutput s .capacity)

/-- R96, R176, R182: padding bits and surplus payload bytes are never examined: DECODE does the same whatever they
are. -/
def Obligations.DecodeNeverExaminesPadding : Prop :=
  ∀ (s t : State) (pay : Buffer), (∀ i, i < s.bitLen.toNat → streamBit pay i = streamBit s.pay i) →
    exec .decode s = .next t → exec .decode { s with pay := pay } = .next { t with pay := pay }

/-- R181: GENCODES, ENCODE and DECODE with one valid tree give the source back. -/
def Obligations.EncodeThenDecodeGivesTheSource : Prop :=
  ∀ (s c : State) (xs : List Sym), StateInv s → s.treeValid = true → s.source = xs.map byteOf →
    (∀ x ∈ xs, x ∈ leaves s.tree) → exec .gencodes s = .next c →
    (codeLength c.code xs + 7) / 8 ≤ s.caps.payCap → s.srcLen.toNat ≤ s.caps.outCap →
    ∃ t u, exec .encode c = .next t ∧ exec .decode t = .next u ∧
      u.outLen = s.srcLen ∧ u.output = s.source ∧ u.source = s.source ∧ u.err = s.err

/-! ### COMPRESS and DECOMPRESS -/

/-- R185: on success the end state is exactly that of the five stage commands issued one after another. -/
def Obligations.CompressIsItsFiveStages : Prop :=
  ∀ s a b c d e : State, s.err = none →
    exec .count s = .next a → a.err = none → exec .build a = .next b → b.err = none →
    exec .gencodes b = .next c → c.err = none → exec .encode c = .next d → d.err = none →
    exec .serialize d = .next e → e.err = none →
    exec .compress s = .next e

/-- R185, R187: a stage that raises makes COMPRESS raise the same error, and every destination is invalidated.  (R186:
after BUILD has succeeded neither GENCODES nor SERIALIZE can raise, so no state meets the third case.) -/
def Obligations.CompressReportsItsFirstFailingStage : Prop :=
  ∀ (s a b c d : State) (e : ErrKind), s.err = none →
    exec .count s = .next a → exec .build a = .next b → exec .gencodes b = .next c → exec .encode c = .next d →
    (a.err = some e ∨ (a.err = none ∧ b.err = some e) ∨ (a.err = none ∧ b.err = none ∧ c.err = some e) ∨
      (a.err = none ∧ b.err = none ∧ c.err = none ∧ d.err = some e)) →
    LosesCompressed s e

/-- R185: a source with two distinct symbols whose payload fits PAY compresses: the counts, the tree, the codes, the
payload and the token stream are those of the stages. -/
def Obligations.CompressCompletes : Prop :=
  ∀ (s a b c : State) (xs : List Sym), StateInv s → s.source = xs.map byteOf → (∃ x ∈ xs, ∃ y ∈ xs, x ≠ y) →
    exec .count s = .next a → exec .build a = .next b → exec .gencodes b = .next c →
    (codeLength c.code xs + 7) / 8 ≤ s.caps.payCap →
    ∃ t, exec .compress s = .next t ∧
      t.cnt = a.cnt ∧ t.tree = b.tree ∧ t.treeValid = true ∧ t.code = c.code ∧
      t.payloadBits = xs.flatMap (fun x => entryPath t.code[x]) ∧ t.bitLen.toNat = codeLength t.code xs ∧
      t.payLen.toNat = (t.bitLen.toNat + 7) / 8 ∧ t.tokens = ser t.tree ∧
      t = { s with
            cnt := t.cnt, tree := t.tree, treeValid := true, code := t.code, pay := t.pay, payLen := t.payLen
            bitLen := t.bitLen, tok := t.tok, tokLen := t.tokLen, draws := t.draws }

/-- R186, R187: when COMPRESS raises EmptyInputError, SingleSymbolError, SymbolRangeError and CapacityError. -/
def Obligations.CompressErrors : Prop :=
  ∀ s : State,
    (s.source = [] → LosesCompressed s .emptyInput) ∧
    (∀ x n, s.source = List.replicate (n + 1) (byteOf x) → LosesCompressed s .singleSymbol) ∧
    (∀ b ∈ s.source, 128 ≤ b.toNat → LosesCompressed s .symbolRange) ∧
    (∀ (a b c : State) (xs : List Sym), s.source = xs.map byteOf → (∃ x ∈ xs, ∃ y ∈ xs, x ≠ y) →
      exec .count s = .next a → exec .build a = .next b → exec .gencodes b = .next c →
      s.caps.payCap < (codeLength c.code xs + 7) / 8 → LosesCompressed s .capacity)

/-- The round trip of the whole block: what COMPRESS made of a source of two or more distinct symbols, both DECODE and
DECOMPRESS turn back into the source. -/
def Obligations.CompressThenDecompressGivesTheSource : Prop :=
  ∀ (s a b c : State) (xs : List Sym), StateInv s → s.source = xs.map byteOf → (∃ x ∈ xs, ∃ y ∈ xs, x ≠ y) →
    exec .count s = .next a → exec .build a = .next b → exec .gencodes b = .next c →
    (codeLength c.code xs + 7) / 8 ≤ s.caps.payCap → s.srcLen.toNat ≤ s.caps.outCap →
    ∃ t u v, exec .compress s = .next t ∧ exec .decode t = .next u ∧ exec .decompress t = .next v ∧
      u.output = s.source ∧ v.output = s.source ∧ u.err = s.err ∧ v.err = s.err ∧ v.tree = t.tree

/-- R188: on success the end state is exactly that of DESERIALIZE followed by DECODE: the tree of the token stream stays
valid, CODE is absent, OUT holds the decoded symbols, and nothing else changes. -/
def Obligations.DecompressCompletes : Prop :=
  ∀ (s : State) (tr : HuffTree) (xs : List Sym), TokenStream s.tokens tr → treeOk tr = true →
    (s.bitLen.toNat + 7) / 8 ≤ s.payLen.toNat → Coded tr s.payloadBits xs → xs.length ≤ s.caps.outCap →
    s.caps.wf = true →
    ∃ d t, exec .deserialize s = .next d ∧ exec .decode d = .next t ∧ exec .decompress s = .next t ∧
      t.outLen.toNat = xs.length ∧ t.output = xs.map byteOf ∧
      t = { s with
            tree := tr, treeValid := true, code := absentCodes, out := t.out, outLen := t.outLen, draws := t.draws }

/-- R188, R190: a stage that raises makes DECOMPRESS raise the same error and leave none of its results, also when the
tree had parsed. -/
def Obligations.DecompressReportsItsFirstFailingStage : Prop :=
  ∀ (s a b : State) (e : ErrKind), s.err = none →
    exec .deserialize s = .next a → exec .decode a = .next b →
    (a.err = some e ∨ (a.err = none ∧ b.err = some e)) → LosesDecompressed s e

/-! ### CLRERR and SRST -/

/-- R191: CLRERR sets ERR to 0 and nothing else changes. -/
def Obligations.ClrerrClearsErrOnly : Prop :=
  ∀ s : State, exec .clrerr s = .next { s with err := none }

/-- R193: SRST sets every item of state to its reset value (R45); what R45 calls unspecified is a free value again (log
entries 4, 5, 6), and the capacities and the host's side stay (log entries 3, 10). -/
def Obligations.SrstGivesTheResetState : Prop :=
  ∀ s : State, ∃ t, exec .srst s = .next t ∧
    t = { State.reset with
          caps := s.caps, turns := s.turns, seen := s.seen, draws := t.draws
          src := t.src, tok := t.tok, pay := t.pay, out := t.out, tree := t.tree, pending := t.pending } ∧
    (∀ b, (t.bufOf b).cells = [])

/-! ### The container -/

/-- R100 to R103: ContainerBytes is the frame of the state's parts (with PAY_LEN below ceil8(BITLEN) its last bytes are
the model's choice: log entry 16); the host's parse gives back the parts of a container, whatever follows it (the bytes
that follow are ignored by the model's choice: log entry 9); it fails on a container cut short, and on one whose L1 is
above 765. -/
def Obligations.ContainerRoundTrip : Prop :=
  (∀ s : State, containerBytes s =
      frame { tok := s.tokens, bitLen := s.bitLen, pay := s.pay.bytes ((s.bitLen.toNat + 7) / 8) }) ∧
  (∀ (c : Container) (extra : List Byte), c.tok.length ≤ 765 → c.pay.length = (c.bitLen.toNat + 7) / 8 →
    containerParse (frame c ++ extra) = some c) ∧
  (∀ (c : Container) (n : Nat), c.tok.length ≤ 765 → c.pay.length = (c.bitLen.toNat + 7) / 8 →
    n < (frame c).length → containerParse ((frame c).take n) = none) ∧
  (∀ (v : Word) (rest : List Byte), 765 < v.toNat → containerParse (le64 v ++ rest) = none)

/-! ### COMPRESS, in terms of its source alone -/

/-- R185: COMPRESS completes, under conditions on the state and the source alone.  With `cnt` the counts of the source,
`tr` the tree of the merge loop on them and `bits` the paths of the source symbols in `tr`, if the packed bits fit PAY
the end state holds exactly these.  And it completes wherever PAY has room for codes of the greatest length, 127. -/
def Obligations.CompressCompletesOnEverySourceThatFits : Prop :=
  (∀ (s : State) (xs : List Sym) (cnt : Vector Word 128) (tr : HuffTree) (bits : List Bool), StateInv s →
    s.source = xs.map byteOf → (∃ x ∈ xs, ∃ y ∈ xs, x ≠ y) → (∀ x : Sym, cnt[x].toNat = xs.count x) →
    MergesTo 0 (startQueue cnt) tr → Coded tr bits xs → (bits.length + 7) / 8 ≤ s.caps.payCap →
    ∃ t, exec .compress s = .next t ∧ IsCodeTableOf t.code tr ∧ t.payloadBits = bits ∧
      t.bitLen.toNat = bits.length ∧ t.payLen.toNat = (bits.length + 7) / 8 ∧ t.tokens = ser tr ∧
      t = { s with
            cnt := cnt, tree := tr, treeValid := true, code := t.code, pay := t.pay, payLen := t.payLen
            bitLen := t.bitLen, tok := t.tok, tokLen := t.tokLen, draws := t.draws }) ∧
  (∀ (s : State) (xs : List Sym), StateInv s → s.source = xs.map byteOf → (∃ x ∈ xs, ∃ y ∈ xs, x ≠ y) →
    (127 * xs.length + 7) / 8 ≤ s.caps.payCap →
    ∃ t, exec .compress s = .next t ∧ t.err = s.err ∧ t.treeValid = true ∧ (∀ x : Sym, t.cnt[x].toNat = xs.count x))
end

