-- ==== Sys2Proof/Laws/State.lean ====
section
/-! SUPPORT. One lemma per field of State per update, so that no proof unfolds a record update. -/

namespace Sys2Proof.Machine

variable (s : State)


/-! ### setErr -/

@[simp] theorem State.setErr_caps (e : ErrKind) : (s.setErr e).caps = s.caps := rfl
@[simp] theorem State.setErr_busy (e : ErrKind) : (s.setErr e).busy = s.busy := rfl
@[simp] theorem State.setErr_treeValid (e : ErrKind) : (s.setErr e).treeValid = s.treeValid := rfl
@[simp] theorem State.setErr_err (e : ErrKind) : (s.setErr e).err = some e := rfl
@[simp] theorem State.setErr_srcLen (e : ErrKind) : (s.setErr e).srcLen = s.srcLen := rfl
@[simp] theorem State.setErr_tokLen (e : ErrKind) : (s.setErr e).tokLen = s.tokLen := rfl
@[simp] theorem State.setErr_payLen (e : ErrKind) : (s.setErr e).payLen = s.payLen := rfl
@[simp] theorem State.setErr_bitLen (e : ErrKind) : (s.setErr e).bitLen = s.bitLen := rfl
@[simp] theorem State.setErr_outLen (e : ErrKind) : (s.setErr e).outLen = s.outLen := rfl
@[simp] theorem State.setErr_cnt (e : ErrKind) : (s.setErr e).cnt = s.cnt := rfl
@[simp] theorem State.setErr_code (e : ErrKind) : (s.setErr e).code = s.code := rfl
@[simp] theorem State.setErr_src (e : ErrKind) : (s.setErr e).src = s.src := rfl
@[simp] theorem State.setErr_tok (e : ErrKind) : (s.setErr e).tok = s.tok := rfl
@[simp] theorem State.setErr_pay (e : ErrKind) : (s.setErr e).pay = s.pay := rfl
@[simp] theorem State.setErr_out (e : ErrKind) : (s.setErr e).out = s.out := rfl
@[simp] theorem State.setErr_tree (e : ErrKind) : (s.setErr e).tree = s.tree := rfl
@[simp] theorem State.setErr_pending (e : ErrKind) : (s.setErr e).pending = s.pending := rfl
@[simp] theorem State.setErr_draws (e : ErrKind) : (s.setErr e).draws = s.draws := rfl
@[simp] theorem State.setErr_turns (e : ErrKind) : (s.setErr e).turns = s.turns := rfl
@[simp] theorem State.setErr_seen (e : ErrKind) : (s.setErr e).seen = s.seen := rfl

/-! ### clearErr -/

@[simp] theorem State.clearErr_caps : s.clearErr.caps = s.caps := rfl
@[simp] theorem State.clearErr_busy : s.clearErr.busy = s.busy := rfl
@[simp] theorem State.clearErr_treeValid : s.clearErr.treeValid = s.treeValid := rfl
@[simp] theorem State.clearErr_err : s.clearErr.err = none := rfl
@[simp] theorem State.clearErr_srcLen : s.clearErr.srcLen = s.srcLen := rfl
@[simp] theorem State.clearErr_tokLen : s.clearErr.tokLen = s.tokLen := rfl
@[simp] theorem State.clearErr_payLen : s.clearErr.payLen = s.payLen := rfl
@[simp] theorem State.clearErr_bitLen : s.clearErr.bitLen = s.bitLen := rfl
@[simp] theorem State.clearErr_outLen : s.clearErr.outLen = s.outLen := rfl
@[simp] theorem State.clearErr_cnt : s.clearErr.cnt = s.cnt := rfl
@[simp] theorem State.clearErr_code : s.clearErr.code = s.code := rfl
@[simp] theorem State.clearErr_src : s.clearErr.src = s.src := rfl
@[simp] theorem State.clearErr_tok : s.clearErr.tok = s.tok := rfl
@[simp] theorem State.clearErr_pay : s.clearErr.pay = s.pay := rfl
@[simp] theorem State.clearErr_out : s.clearErr.out = s.out := rfl
@[simp] theorem State.clearErr_tree : s.clearErr.tree = s.tree := rfl
@[simp] theorem State.clearErr_pending : s.clearErr.pending = s.pending := rfl
@[simp] theorem State.clearErr_draws : s.clearErr.draws = s.draws := rfl
@[simp] theorem State.clearErr_turns : s.clearErr.turns = s.turns := rfl
@[simp] theorem State.clearErr_seen : s.clearErr.seen = s.seen := rfl

/-! ### zeroCnt -/

@[simp] theorem State.zeroCnt_caps : s.zeroCnt.caps = s.caps := rfl
@[simp] theorem State.zeroCnt_busy : s.zeroCnt.busy = s.busy := rfl
@[simp] theorem State.zeroCnt_treeValid : s.zeroCnt.treeValid = s.treeValid := rfl
@[simp] theorem State.zeroCnt_err : s.zeroCnt.err = s.err := rfl
@[simp] theorem State.zeroCnt_srcLen : s.zeroCnt.srcLen = s.srcLen := rfl
@[simp] theorem State.zeroCnt_tokLen : s.zeroCnt.tokLen = s.tokLen := rfl
@[simp] theorem State.zeroCnt_payLen : s.zeroCnt.payLen = s.payLen := rfl
@[simp] theorem State.zeroCnt_bitLen : s.zeroCnt.bitLen = s.bitLen := rfl
@[simp] theorem State.zeroCnt_outLen : s.zeroCnt.outLen = s.outLen := rfl
@[simp] theorem State.zeroCnt_cnt : s.zeroCnt.cnt = zeroCounts := rfl
@[simp] theorem State.zeroCnt_code : s.zeroCnt.code = s.code := rfl
@[simp] theorem State.zeroCnt_src : s.zeroCnt.src = s.src := rfl
@[simp] theorem State.zeroCnt_tok : s.zeroCnt.tok = s.tok := rfl
@[simp] theorem State.zeroCnt_pay : s.zeroCnt.pay = s.pay := rfl
@[simp] theorem State.zeroCnt_out : s.zeroCnt.out = s.out := rfl
@[simp] theorem State.zeroCnt_tree : s.zeroCnt.tree = s.tree := rfl
@[simp] theorem State.zeroCnt_pending : s.zeroCnt.pending = s.pending := rfl
@[simp] theorem State.zeroCnt_draws : s.zeroCnt.draws = s.draws := rfl
@[simp] theorem State.zeroCnt_turns : s.zeroCnt.turns = s.turns := rfl
@[simp] theorem State.zeroCnt_seen : s.zeroCnt.seen = s.seen := rfl

/-! ### clearCodes -/

@[simp] theorem State.clearCodes_caps : s.clearCodes.caps = s.caps := rfl
@[simp] theorem State.clearCodes_busy : s.clearCodes.busy = s.busy := rfl
@[simp] theorem State.clearCodes_treeValid : s.clearCodes.treeValid = s.treeValid := rfl
@[simp] theorem State.clearCodes_err : s.clearCodes.err = s.err := rfl
@[simp] theorem State.clearCodes_srcLen : s.clearCodes.srcLen = s.srcLen := rfl
@[simp] theorem State.clearCodes_tokLen : s.clearCodes.tokLen = s.tokLen := rfl
@[simp] theorem State.clearCodes_payLen : s.clearCodes.payLen = s.payLen := rfl
@[simp] theorem State.clearCodes_bitLen : s.clearCodes.bitLen = s.bitLen := rfl
@[simp] theorem State.clearCodes_outLen : s.clearCodes.outLen = s.outLen := rfl
@[simp] theorem State.clearCodes_cnt : s.clearCodes.cnt = s.cnt := rfl
@[simp] theorem State.clearCodes_code : s.clearCodes.code = absentCodes := rfl
@[simp] theorem State.clearCodes_src : s.clearCodes.src = s.src := rfl
@[simp] theorem State.clearCodes_tok : s.clearCodes.tok = s.tok := rfl
@[simp] theorem State.clearCodes_pay : s.clearCodes.pay = s.pay := rfl
@[simp] theorem State.clearCodes_out : s.clearCodes.out = s.out := rfl
@[simp] theorem State.clearCodes_tree : s.clearCodes.tree = s.tree := rfl
@[simp] theorem State.clearCodes_pending : s.clearCodes.pending = s.pending := rfl
@[simp] theorem State.clearCodes_draws : s.clearCodes.draws = s.draws := rfl
@[simp] theorem State.clearCodes_turns : s.clearCodes.turns = s.turns := rfl
@[simp] theorem State.clearCodes_seen : s.clearCodes.seen = s.seen := rfl

/-! ### installTree -/

@[simp] theorem State.installTree_caps (t : HuffTree) : (s.installTree t).caps = s.caps := rfl
@[simp] theorem State.installTree_busy (t : HuffTree) : (s.installTree t).busy = s.busy := rfl
@[simp] theorem State.installTree_treeValid (t : HuffTree) : (s.installTree t).treeValid = true := rfl
@[simp] theorem State.installTree_err (t : HuffTree) : (s.installTree t).err = s.err := rfl
@[simp] theorem State.installTree_srcLen (t : HuffTree) : (s.installTree t).srcLen = s.srcLen := rfl
@[simp] theorem State.installTree_tokLen (t : HuffTree) : (s.installTree t).tokLen = s.tokLen := rfl
@[simp] theorem State.installTree_payLen (t : HuffTree) : (s.installTree t).payLen = s.payLen := rfl
@[simp] theorem State.installTree_bitLen (t : HuffTree) : (s.installTree t).bitLen = s.bitLen := rfl
@[simp] theorem State.installTree_outLen (t : HuffTree) : (s.installTree t).outLen = s.outLen := rfl
@[simp] theorem State.installTree_cnt (t : HuffTree) : (s.installTree t).cnt = s.cnt := rfl
@[simp] theorem State.installTree_code (t : HuffTree) : (s.installTree t).code = absentCodes := rfl
@[simp] theorem State.installTree_src (t : HuffTree) : (s.installTree t).src = s.src := rfl
@[simp] theorem State.installTree_tok (t : HuffTree) : (s.installTree t).tok = s.tok := rfl
@[simp] theorem State.installTree_pay (t : HuffTree) : (s.installTree t).pay = s.pay := rfl
@[simp] theorem State.installTree_out (t : HuffTree) : (s.installTree t).out = s.out := rfl
@[simp] theorem State.installTree_tree (t : HuffTree) : (s.installTree t).tree = t := rfl
@[simp] theorem State.installTree_pending (t : HuffTree) : (s.installTree t).pending = s.pending := rfl
@[simp] theorem State.installTree_draws (t : HuffTree) : (s.installTree t).draws = s.draws := rfl
@[simp] theorem State.installTree_turns (t : HuffTree) : (s.installTree t).turns = s.turns := rfl
@[simp] theorem State.installTree_seen (t : HuffTree) : (s.installTree t).seen = s.seen := rfl

/-! ### dropTree -/

@[simp] theorem State.dropTree_caps : s.dropTree.caps = s.caps := rfl
@[simp] theorem State.dropTree_busy : s.dropTree.busy = s.busy := rfl
@[simp] theorem State.dropTree_treeValid : s.dropTree.treeValid = false := rfl
@[simp] theorem State.dropTree_err : s.dropTree.err = s.err := rfl
@[simp] theorem State.dropTree_srcLen : s.dropTree.srcLen = s.srcLen := rfl
@[simp] theorem State.dropTree_tokLen : s.dropTree.tokLen = s.tokLen := rfl
@[simp] theorem State.dropTree_payLen : s.dropTree.payLen = s.payLen := rfl
@[simp] theorem State.dropTree_bitLen : s.dropTree.bitLen = s.bitLen := rfl
@[simp] theorem State.dropTree_outLen : s.dropTree.outLen = s.outLen := rfl
@[simp] theorem State.dropTree_cnt : s.dropTree.cnt = s.cnt := rfl
@[simp] theorem State.dropTree_code : s.dropTree.code = absentCodes := rfl
@[simp] theorem State.dropTree_src : s.dropTree.src = s.src := rfl
@[simp] theorem State.dropTree_tok : s.dropTree.tok = s.tok := rfl
@[simp] theorem State.dropTree_pay : s.dropTree.pay = s.pay := rfl
@[simp] theorem State.dropTree_out : s.dropTree.out = s.out := rfl
@[simp] theorem State.dropTree_tree : s.dropTree.tree = Config.freeTree s.draws := rfl
@[simp] theorem State.dropTree_pending : s.dropTree.pending = s.pending := rfl
@[simp] theorem State.dropTree_draws : s.dropTree.draws = s.draws + 1 := rfl
@[simp] theorem State.dropTree_turns : s.dropTree.turns = s.turns := rfl
@[simp] theorem State.dropTree_seen : s.dropTree.seen = s.seen := rfl

/-! ### writeTok -/

@[simp] theorem State.writeTok_caps (bs : List Byte) : (s.writeTok bs).caps = s.caps := rfl
@[simp] theorem State.writeTok_busy (bs : List Byte) : (s.writeTok bs).busy = s.busy := rfl
@[simp] theorem State.writeTok_treeValid (bs : List Byte) : (s.writeTok bs).treeValid = s.treeValid := rfl
@[simp] theorem State.writeTok_err (bs : List Byte) : (s.writeTok bs).err = s.err := rfl
@[simp] theorem State.writeTok_srcLen (bs : List Byte) : (s.writeTok bs).srcLen = s.srcLen := rfl
@[simp] theorem State.writeTok_tokLen (bs : List Byte) : (s.writeTok bs).tokLen = BitVec.ofNat 64 bs.length := rfl
@[simp] theorem State.writeTok_payLen (bs : List Byte) : (s.writeTok bs).payLen = s.payLen := rfl
@[simp] theorem State.writeTok_bitLen (bs : List Byte) : (s.writeTok bs).bitLen = s.bitLen := rfl
@[simp] theorem State.writeTok_outLen (bs : List Byte) : (s.writeTok bs).outLen = s.outLen := rfl
@[simp] theorem State.writeTok_cnt (bs : List Byte) : (s.writeTok bs).cnt = s.cnt := rfl
@[simp] theorem State.writeTok_code (bs : List Byte) : (s.writeTok bs).code = s.code := rfl
@[simp] theorem State.writeTok_src (bs : List Byte) : (s.writeTok bs).src = s.src := rfl
@[simp] theorem State.writeTok_tok (bs : List Byte) : (s.writeTok bs).tok = Buffer.holding bs s.draws := rfl
@[simp] theorem State.writeTok_pay (bs : List Byte) : (s.writeTok bs).pay = s.pay := rfl
@[simp] theorem State.writeTok_out (bs : List Byte) : (s.writeTok bs).out = s.out := rfl
@[simp] theorem State.writeTok_tree (bs : List Byte) : (s.writeTok bs).tree = s.tree := rfl
@[simp] theorem State.writeTok_pending (bs : List Byte) : (s.writeTok bs).pending = s.pending := rfl
@[simp] theorem State.writeTok_draws (bs : List Byte) : (s.writeTok bs).draws = s.draws + 1 := rfl
@[simp] theorem State.writeTok_turns (bs : List Byte) : (s.writeTok bs).turns = s.turns := rfl
@[simp] theorem State.writeTok_seen (bs : List Byte) : (s.writeTok bs).seen = s.seen := rfl

/-! ### dropTok -/

@[simp] theorem State.dropTok_caps : s.dropTok.caps = s.caps := rfl
@[simp] theorem State.dropTok_busy : s.dropTok.busy = s.busy := rfl
@[simp] theorem State.dropTok_treeValid : s.dropTok.treeValid = s.treeValid := rfl
@[simp] theorem State.dropTok_err : s.dropTok.err = s.err := rfl
@[simp] theorem State.dropTok_srcLen : s.dropTok.srcLen = s.srcLen := rfl
@[simp] theorem State.dropTok_tokLen : s.dropTok.tokLen = 0 := rfl
@[simp] theorem State.dropTok_payLen : s.dropTok.payLen = s.payLen := rfl
@[simp] theorem State.dropTok_bitLen : s.dropTok.bitLen = s.bitLen := rfl
@[simp] theorem State.dropTok_outLen : s.dropTok.outLen = s.outLen := rfl
@[simp] theorem State.dropTok_cnt : s.dropTok.cnt = s.cnt := rfl
@[simp] theorem State.dropTok_code : s.dropTok.code = s.code := rfl
@[simp] theorem State.dropTok_src : s.dropTok.src = s.src := rfl
@[simp] theorem State.dropTok_tok : s.dropTok.tok = Buffer.unspecified s.draws := rfl
@[simp] theorem State.dropTok_pay : s.dropTok.pay = s.pay := rfl
@[simp] theorem State.dropTok_out : s.dropTok.out = s.out := rfl
@[simp] theorem State.dropTok_tree : s.dropTok.tree = s.tree := rfl
@[simp] theorem State.dropTok_pending : s.dropTok.pending = s.pending := rfl
@[simp] theorem State.dropTok_draws : s.dropTok.draws = s.draws + 1 := rfl
@[simp] theorem State.dropTok_turns : s.dropTok.turns = s.turns := rfl
@[simp] theorem State.dropTok_seen : s.dropTok.seen = s.seen := rfl

/-! ### writePay -/

@[simp] theorem State.writePay_caps (bs : List Byte) (n : Nat) : (s.writePay bs n).caps = s.caps := rfl
@[simp] theorem State.writePay_busy (bs : List Byte) (n : Nat) : (s.writePay bs n).busy = s.busy := rfl
@[simp] theorem State.writePay_treeValid (bs : List Byte) (n : Nat) : (s.writePay bs n).treeValid = s.treeValid := rfl
@[simp] theorem State.writePay_err (bs : List Byte) (n : Nat) : (s.writePay bs n).err = s.err := rfl
@[simp] theorem State.writePay_srcLen (bs : List Byte) (n : Nat) : (s.writePay bs n).srcLen = s.srcLen := rfl
@[simp] theorem State.writePay_tokLen (bs : List Byte) (n : Nat) : (s.writePay bs n).tokLen = s.tokLen := rfl
@[simp] theorem State.writePay_payLen (bs : List Byte) (n : Nat) : (s.writePay bs n).payLen = BitVec.ofNat 64 bs.length := rfl
@[simp] theorem State.writePay_bitLen (bs : List Byte) (n : Nat) : (s.writePay bs n).bitLen = BitVec.ofNat 64 n := rfl
@[simp] theorem State.writePay_outLen (bs : List Byte) (n : Nat) : (s.writePay bs n).outLen = s.outLen := rfl
@[simp] theorem State.writePay_cnt (bs : List Byte) (n : Nat) : (s.writePay bs n).cnt = s.cnt := rfl
@[simp] theorem State.writePay_code (bs : List Byte) (n : Nat) : (s.writePay bs n).code = s.code := rfl
@[simp] theorem State.writePay_src (bs : List Byte) (n : Nat) : (s.writePay bs n).src = s.src := rfl
@[simp] theorem State.writePay_tok (bs : List Byte) (n : Nat) : (s.writePay bs n).tok = s.tok := rfl
@[simp] theorem State.writePay_pay (bs : List Byte) (n : Nat) : (s.writePay bs n).pay = Buffer.holding bs s.draws := rfl
@[simp] theorem State.writePay_out (bs : List Byte) (n : Nat) : (s.writePay bs n).out = s.out := rfl
@[simp] theorem State.writePay_tree (bs : List Byte) (n : Nat) : (s.writePay bs n).tree = s.tree := rfl
@[simp] theorem State.writePay_pending (bs : List Byte) (n : Nat) : (s.writePay bs n).pending = s.pending := rfl
@[simp] theorem State.writePay_draws (bs : List Byte) (n : Nat) : (s.writePay bs n).draws = s.draws + 1 := rfl
@[simp] theorem State.writePay_turns (bs : List Byte) (n : Nat) : (s.writePay bs n).turns = s.turns := rfl
@[simp] theorem State.writePay_seen (bs : List Byte) (n : Nat) : (s.writePay bs n).seen = s.seen := rfl

/-! ### dropPay -/

@[simp] theorem State.dropPay_caps : s.dropPay.caps = s.caps := rfl
@[simp] theorem State.dropPay_busy : s.dropPay.busy = s.busy := rfl
@[simp] theorem State.dropPay_treeValid : s.dropPay.treeValid = s.treeValid := rfl
@[simp] theorem State.dropPay_err : s.dropPay.err = s.err := rfl
@[simp] theorem State.dropPay_srcLen : s.dropPay.srcLen = s.srcLen := rfl
@[simp] theorem State.dropPay_tokLen : s.dropPay.tokLen = s.tokLen := rfl
@[simp] theorem State.dropPay_payLen : s.dropPay.payLen = 0 := rfl
@[simp] theorem State.dropPay_bitLen : s.dropPay.bitLen = 0 := rfl
@[simp] theorem State.dropPay_outLen : s.dropPay.outLen = s.outLen := rfl
@[simp] theorem State.dropPay_cnt : s.dropPay.cnt = s.cnt := rfl
@[simp] theorem State.dropPay_code : s.dropPay.code = s.code := rfl
@[simp] theorem State.dropPay_src : s.dropPay.src = s.src := rfl
@[simp] theorem State.dropPay_tok : s.dropPay.tok = s.tok := rfl
@[simp] theorem State.dropPay_pay : s.dropPay.pay = Buffer.unspecified s.draws := rfl
@[simp] theorem State.dropPay_out : s.dropPay.out = s.out := rfl
@[simp] theorem State.dropPay_tree : s.dropPay.tree = s.tree := rfl
@[simp] theorem State.dropPay_pending : s.dropPay.pending = s.pending := rfl
@[simp] theorem State.dropPay_draws : s.dropPay.draws = s.draws + 1 := rfl
@[simp] theorem State.dropPay_turns : s.dropPay.turns = s.turns := rfl
@[simp] theorem State.dropPay_seen : s.dropPay.seen = s.seen := rfl

/-! ### writeOut -/

@[simp] theorem State.writeOut_caps (bs : List Byte) : (s.writeOut bs).caps = s.caps := rfl
@[simp] theorem State.writeOut_busy (bs : List Byte) : (s.writeOut bs).busy = s.busy := rfl
@[simp] theorem State.writeOut_treeValid (bs : List Byte) : (s.writeOut bs).treeValid = s.treeValid := rfl
@[simp] theorem State.writeOut_err (bs : List Byte) : (s.writeOut bs).err = s.err := rfl
@[simp] theorem State.writeOut_srcLen (bs : List Byte) : (s.writeOut bs).srcLen = s.srcLen := rfl
@[simp] theorem State.writeOut_tokLen (bs : List Byte) : (s.writeOut bs).tokLen = s.tokLen := rfl
@[simp] theorem State.writeOut_payLen (bs : List Byte) : (s.writeOut bs).payLen = s.payLen := rfl
@[simp] theorem State.writeOut_bitLen (bs : List Byte) : (s.writeOut bs).bitLen = s.bitLen := rfl
@[simp] theorem State.writeOut_outLen (bs : List Byte) : (s.writeOut bs).outLen = BitVec.ofNat 64 bs.length := rfl
@[simp] theorem State.writeOut_cnt (bs : List Byte) : (s.writeOut bs).cnt = s.cnt := rfl
@[simp] theorem State.writeOut_code (bs : List Byte) : (s.writeOut bs).code = s.code := rfl
@[simp] theorem State.writeOut_src (bs : List Byte) : (s.writeOut bs).src = s.src := rfl
@[simp] theorem State.writeOut_tok (bs : List Byte) : (s.writeOut bs).tok = s.tok := rfl
@[simp] theorem State.writeOut_pay (bs : List Byte) : (s.writeOut bs).pay = s.pay := rfl
@[simp] theorem State.writeOut_out (bs : List Byte) : (s.writeOut bs).out = Buffer.holding bs s.draws := rfl
@[simp] theorem State.writeOut_tree (bs : List Byte) : (s.writeOut bs).tree = s.tree := rfl
@[simp] theorem State.writeOut_pending (bs : List Byte) : (s.writeOut bs).pending = s.pending := rfl
@[simp] theorem State.writeOut_draws (bs : List Byte) : (s.writeOut bs).draws = s.draws + 1 := rfl
@[simp] theorem State.writeOut_turns (bs : List Byte) : (s.writeOut bs).turns = s.turns := rfl
@[simp] theorem State.writeOut_seen (bs : List Byte) : (s.writeOut bs).seen = s.seen := rfl

/-! ### dropOut -/

@[simp] theorem State.dropOut_caps : s.dropOut.caps = s.caps := rfl
@[simp] theorem State.dropOut_busy : s.dropOut.busy = s.busy := rfl
@[simp] theorem State.dropOut_treeValid : s.dropOut.treeValid = s.treeValid := rfl
@[simp] theorem State.dropOut_err : s.dropOut.err = s.err := rfl
@[simp] theorem State.dropOut_srcLen : s.dropOut.srcLen = s.srcLen := rfl
@[simp] theorem State.dropOut_tokLen : s.dropOut.tokLen = s.tokLen := rfl
@[simp] theorem State.dropOut_payLen : s.dropOut.payLen = s.payLen := rfl
@[simp] theorem State.dropOut_bitLen : s.dropOut.bitLen = s.bitLen := rfl
@[simp] theorem State.dropOut_outLen : s.dropOut.outLen = 0 := rfl
@[simp] theorem State.dropOut_cnt : s.dropOut.cnt = s.cnt := rfl
@[simp] theorem State.dropOut_code : s.dropOut.code = s.code := rfl
@[simp] theorem State.dropOut_src : s.dropOut.src = s.src := rfl
@[simp] theorem State.dropOut_tok : s.dropOut.tok = s.tok := rfl
@[simp] theorem State.dropOut_pay : s.dropOut.pay = s.pay := rfl
@[simp] theorem State.dropOut_out : s.dropOut.out = Buffer.unspecified s.draws := rfl
@[simp] theorem State.dropOut_tree : s.dropOut.tree = s.tree := rfl
@[simp] theorem State.dropOut_pending : s.dropOut.pending = s.pending := rfl
@[simp] theorem State.dropOut_draws : s.dropOut.draws = s.draws + 1 := rfl
@[simp] theorem State.dropOut_turns : s.dropOut.turns = s.turns := rfl
@[simp] theorem State.dropOut_seen : s.dropOut.seen = s.seen := rfl

/-! ### accept -/

@[simp] theorem State.accept_caps (op : Byte) : (s.accept op).caps = s.caps := rfl
@[simp] theorem State.accept_busy (op : Byte) : (s.accept op).busy = true := rfl
@[simp] theorem State.accept_treeValid (op : Byte) : (s.accept op).treeValid = s.treeValid := rfl
@[simp] theorem State.accept_err (op : Byte) : (s.accept op).err = s.err := rfl
@[simp] theorem State.accept_srcLen (op : Byte) : (s.accept op).srcLen = s.srcLen := rfl
@[simp] theorem State.accept_tokLen (op : Byte) : (s.accept op).tokLen = s.tokLen := rfl
@[simp] theorem State.accept_payLen (op : Byte) : (s.accept op).payLen = s.payLen := rfl
@[simp] theorem State.accept_bitLen (op : Byte) : (s.accept op).bitLen = s.bitLen := rfl
@[simp] theorem State.accept_outLen (op : Byte) : (s.accept op).outLen = s.outLen := rfl
@[simp] theorem State.accept_cnt (op : Byte) : (s.accept op).cnt = s.cnt := rfl
@[simp] theorem State.accept_code (op : Byte) : (s.accept op).code = s.code := rfl
@[simp] theorem State.accept_src (op : Byte) : (s.accept op).src = s.src := rfl
@[simp] theorem State.accept_tok (op : Byte) : (s.accept op).tok = s.tok := rfl
@[simp] theorem State.accept_pay (op : Byte) : (s.accept op).pay = s.pay := rfl
@[simp] theorem State.accept_out (op : Byte) : (s.accept op).out = s.out := rfl
@[simp] theorem State.accept_tree (op : Byte) : (s.accept op).tree = s.tree := rfl
@[simp] theorem State.accept_pending (op : Byte) : (s.accept op).pending = op := rfl
@[simp] theorem State.accept_draws (op : Byte) : (s.accept op).draws = s.draws := rfl
@[simp] theorem State.accept_turns (op : Byte) : (s.accept op).turns = s.turns := rfl
@[simp] theorem State.accept_seen (op : Byte) : (s.accept op).seen = s.seen := rfl

/-! ### finish -/

@[simp] theorem State.finish_caps : s.finish.caps = s.caps := rfl
@[simp] theorem State.finish_busy : s.finish.busy = false := rfl
@[simp] theorem State.finish_treeValid : s.finish.treeValid = s.treeValid := rfl
@[simp] theorem State.finish_err : s.finish.err = s.err := rfl
@[simp] theorem State.finish_srcLen : s.finish.srcLen = s.srcLen := rfl
@[simp] theorem State.finish_tokLen : s.finish.tokLen = s.tokLen := rfl
@[simp] theorem State.finish_payLen : s.finish.payLen = s.payLen := rfl
@[simp] theorem State.finish_bitLen : s.finish.bitLen = s.bitLen := rfl
@[simp] theorem State.finish_outLen : s.finish.outLen = s.outLen := rfl
@[simp] theorem State.finish_cnt : s.finish.cnt = s.cnt := rfl
@[simp] theorem State.finish_code : s.finish.code = s.code := rfl
@[simp] theorem State.finish_src : s.finish.src = s.src := rfl
@[simp] theorem State.finish_tok : s.finish.tok = s.tok := rfl
@[simp] theorem State.finish_pay : s.finish.pay = s.pay := rfl
@[simp] theorem State.finish_out : s.finish.out = s.out := rfl
@[simp] theorem State.finish_tree : s.finish.tree = s.tree := rfl
@[simp] theorem State.finish_pending : s.finish.pending = Config.freeOpcode s.draws := rfl
@[simp] theorem State.finish_draws : s.finish.draws = s.draws + 1 := rfl
@[simp] theorem State.finish_turns : s.finish.turns = s.turns := rfl
@[simp] theorem State.finish_seen : s.finish.seen = s.seen := rfl

/-! ### answer -/

@[simp] theorem State.answer_caps (a : Answer) : (s.answer a).caps = s.caps := rfl
@[simp] theorem State.answer_busy (a : Answer) : (s.answer a).busy = s.busy := rfl
@[simp] theorem State.answer_treeValid (a : Answer) : (s.answer a).treeValid = s.treeValid := rfl
@[simp] theorem State.answer_err (a : Answer) : (s.answer a).err = s.err := rfl
@[simp] theorem State.answer_srcLen (a : Answer) : (s.answer a).srcLen = s.srcLen := rfl
@[simp] theorem State.answer_tokLen (a : Answer) : (s.answer a).tokLen = s.tokLen := rfl
@[simp] theorem State.answer_payLen (a : Answer) : (s.answer a).payLen = s.payLen := rfl
@[simp] theorem State.answer_bitLen (a : Answer) : (s.answer a).bitLen = s.bitLen := rfl
@[simp] theorem State.answer_outLen (a : Answer) : (s.answer a).outLen = s.outLen := rfl
@[simp] theorem State.answer_cnt (a : Answer) : (s.answer a).cnt = s.cnt := rfl
@[simp] theorem State.answer_code (a : Answer) : (s.answer a).code = s.code := rfl
@[simp] theorem State.answer_src (a : Answer) : (s.answer a).src = s.src := rfl
@[simp] theorem State.answer_tok (a : Answer) : (s.answer a).tok = s.tok := rfl
@[simp] theorem State.answer_pay (a : Answer) : (s.answer a).pay = s.pay := rfl
@[simp] theorem State.answer_out (a : Answer) : (s.answer a).out = s.out := rfl
@[simp] theorem State.answer_tree (a : Answer) : (s.answer a).tree = s.tree := rfl
@[simp] theorem State.answer_pending (a : Answer) : (s.answer a).pending = s.pending := rfl
@[simp] theorem State.answer_draws (a : Answer) : (s.answer a).draws = s.draws := rfl
@[simp] theorem State.answer_turns (a : Answer) : (s.answer a).turns = s.turns := rfl
@[simp] theorem State.answer_seen (a : Answer) : (s.answer a).seen = a :: s.seen := rfl

/-! ### resetBlock -/

@[simp] theorem State.resetBlock_caps : s.resetBlock.caps = s.caps := rfl
@[simp] theorem State.resetBlock_busy : s.resetBlock.busy = false := rfl
@[simp] theorem State.resetBlock_treeValid : s.resetBlock.treeValid = false := rfl
@[simp] theorem State.resetBlock_err : s.resetBlock.err = none := rfl
@[simp] theorem State.resetBlock_srcLen : s.resetBlock.srcLen = 0 := rfl
@[simp] theorem State.resetBlock_tokLen : s.resetBlock.tokLen = 0 := rfl
@[simp] theorem State.resetBlock_payLen : s.resetBlock.payLen = 0 := rfl
@[simp] theorem State.resetBlock_bitLen : s.resetBlock.bitLen = 0 := rfl
@[simp] theorem State.resetBlock_outLen : s.resetBlock.outLen = 0 := rfl
@[simp] theorem State.resetBlock_cnt : s.resetBlock.cnt = zeroCounts := rfl
@[simp] theorem State.resetBlock_code : s.resetBlock.code = absentCodes := rfl
@[simp] theorem State.resetBlock_src : s.resetBlock.src = Buffer.unspecified s.draws := rfl
@[simp] theorem State.resetBlock_tok : s.resetBlock.tok = Buffer.unspecified (s.draws + 1) := rfl
@[simp] theorem State.resetBlock_pay : s.resetBlock.pay = Buffer.unspecified (s.draws + 2) := rfl
@[simp] theorem State.resetBlock_out : s.resetBlock.out = Buffer.unspecified (s.draws + 3) := rfl
@[simp] theorem State.resetBlock_tree : s.resetBlock.tree = Config.freeTree (s.draws + 4) := rfl
@[simp] theorem State.resetBlock_pending : s.resetBlock.pending = Config.freeOpcode (s.draws + 5) := rfl
@[simp] theorem State.resetBlock_draws : s.resetBlock.draws = s.draws + 6 := rfl
@[simp] theorem State.resetBlock_turns : s.resetBlock.turns = s.turns := rfl
@[simp] theorem State.resetBlock_seen : s.resetBlock.seen = s.seen := rfl

end Sys2Proof.Machine
end

