-- ==== Sys2Proof/Laws/Memory.lean ====
section
/-! SUPPORT. The laws of cells and buffers: read after write, and that every memory operation keeps the canonical
form. -/

namespace Sys2Proof.Machine

/-! ### Read after write -/

theorem cellsRead_cellsWrite (cs : List Host.Cell) (i j : Nat) (v : Byte) :
    cellsRead (cellsWrite cs i v) j = if j = i then some v else cellsRead cs j := by
  induction cs with
  | nil => simp only [cellsWrite, cellsRead, eq_comm (a := i)]
  | cons c cs ih =>
    obtain ⟨a, w⟩ := c
    simp only [cellsWrite]
    split
    · simp only [cellsRead, eq_comm (a := i)]
    · split
      · subst i; simp only [cellsRead, eq_comm (a := a)]; split <;> rfl
      · simp only [cellsRead, ih]
        split
        · next h => subst h; simp [show ¬ a = i by omega]
        · rfl

theorem Buffer.get_put_same (b : Buffer) (i : Nat) (v : Byte) : (b.put i v).get i = v := by
  simp [Buffer.get, Buffer.put, cellsRead_cellsWrite]

theorem Buffer.get_put_other (b : Buffer) {i j : Nat} (v : Byte) (h : j ≠ i) : (b.put i v).get j = b.get j := by
  simp [Buffer.get, Buffer.put, cellsRead_cellsWrite, h]

theorem cellsRead_cellsFrom (bs : List Byte) (i k : Nat) : cellsRead (cellsFrom i bs) (i + k) = bs[k]? := by
  induction bs generalizing i k with
  | nil => rfl
  | cons b bs ih =>
    cases k with
    | zero => simp [cellsFrom, cellsRead]
    | succ k =>
      have := ih (i + 1) k
      rw [show i + 1 + k = i + (k + 1) by omega] at this
      simp [cellsFrom, cellsRead, this]

/-- The bytes a command wrote read back as it wrote them. -/
theorem Buffer.get_holding (bs : List Byte) (d i : Nat) (h : i < bs.length) :
    (Buffer.holding bs d).get i = bs[i] := by
  have := cellsRead_cellsFrom bs 0 i
  rw [Nat.zero_add] at this
  simp [Buffer.get, Buffer.holding, this, h]

theorem Buffer.length_bytes (b : Buffer) (n : Nat) : (b.bytes n).length = n := by simp [Buffer.bytes]

theorem Buffer.getElem_bytes (b : Buffer) (n i : Nat) (h : i < (b.bytes n).length) : (b.bytes n)[i] = b.get i := by
  simp [Buffer.bytes]

theorem Buffer.bytes_holding (bs : List Byte) (d : Nat) : (Buffer.holding bs d).bytes bs.length = bs := by
  apply List.ext_getElem (Buffer.length_bytes _ _)
  intro i _ h
  rw [Buffer.getElem_bytes, Buffer.get_holding _ _ _ h]

/-! ### The canonical form -/

/-- Rising cells whose first address is at least `lo`. -/
def risingFrom : Nat → List Host.Cell → Prop
  | _, [] => True
  | lo, (a, _) :: cs => lo ≤ a ∧ risingFrom (a + 1) cs

theorem cellsRising_cons (c : Host.Cell) (cs : List Host.Cell) :
    cellsRising (c :: cs) = true ↔ risingFrom (c.1 + 1) cs := by
  induction cs generalizing c with
  | nil => simp [cellsRising, risingFrom]
  | cons d cs ih =>
    simp only [cellsRising, Bool.and_eq_true, decide_eq_true_eq, ih, risingFrom]
    exact Iff.rfl

theorem cellsRising_iff (cs : List Host.Cell) : cellsRising cs = true ↔ risingFrom 0 cs := by
  cases cs with
  | nil => simp [cellsRising, risingFrom]
  | cons c cs => simp [cellsRising_cons, risingFrom]

theorem risingFrom_write (cs : List Host.Cell) (lo i : Nat) (v : Byte) (hi : lo ≤ i) (h : risingFrom lo cs) :
    risingFrom lo (cellsWrite cs i v) := by
  induction cs generalizing lo with
  | nil => simp [cellsWrite, risingFrom, hi]
  | cons c cs ih =>
    obtain ⟨a, w⟩ := c
    obtain ⟨ha, hc⟩ := h
    simp only [cellsWrite]
    split
    · exact ⟨hi, by omega, hc⟩
    · split
      · subst i; exact ⟨ha, hc⟩
      · exact ⟨ha, ih (a + 1) (by omega) hc⟩

theorem risingFrom_cellsFrom (bs : List Byte) (i : Nat) : risingFrom i (cellsFrom i bs) := by
  induction bs generalizing i with
  | nil => trivial
  | cons b bs ih => exact ⟨le_rfl, ih (i + 1)⟩

theorem all_below_write (cs : List Host.Cell) (cap i : Nat) (v : Byte) (hi : i < cap)
    (h : cs.all (fun c => c.1 < cap) = true) : (cellsWrite cs i v).all (fun c => c.1 < cap) = true := by
  induction cs with
  | nil => simp [cellsWrite, hi]
  | cons c cs ih =>
    obtain ⟨a, w⟩ := c
    simp only [List.all_cons, Bool.and_eq_true, decide_eq_true_eq] at h
    simp only [cellsWrite]
    split
    · simpa [hi, h.1] using h.2
    · split
      · subst i; simpa [h.1] using h.2
      · simpa [h.1] using ih h.2

theorem all_below_cellsFrom (bs : List Byte) (i cap : Nat) (h : i + bs.length ≤ cap) :
    (cellsFrom i bs).all (fun c => c.1 < cap) = true := by
  induction bs generalizing i with
  | nil => rfl
  | cons b bs ih =>
    simp only [List.length_cons] at h
    simp [cellsFrom, show i < cap by omega]
    simpa using ih (i + 1) (by omega)

theorem Buffer.wf_put {cap i : Nat} {b : Buffer} (v : Byte) (hi : i < cap) (h : b.wf cap = true) :
    (b.put i v).wf cap = true := by
  simp only [Buffer.wf, Bool.and_eq_true, cellsRising_iff] at *
  exact ⟨risingFrom_write _ _ _ _ (Nat.zero_le i) h.1, all_below_write _ _ _ _ hi h.2⟩

theorem Buffer.wf_holding {cap : Nat} {bs : List Byte} (d : Nat) (h : bs.length ≤ cap) :
    (Buffer.holding bs d).wf cap = true := by
  simp only [Buffer.wf, Buffer.holding, Bool.and_eq_true, cellsRising_iff]
  exact ⟨risingFrom_cellsFrom _ _, all_below_cellsFrom _ _ _ (by omega)⟩

theorem Buffer.wf_unspecified (cap d : Nat) : (Buffer.unspecified d).wf cap = true := rfl

/-! ### Every memory operation keeps the canonical form -/

theorem Memory.wf_iff (s : State) : Memory.wf s = true ↔ ∀ b : Buf, (s.bufOf b).wf (s.capOf b) = true := by
  simp only [Memory.wf, Bool.and_eq_true]
  constructor
  · rintro ⟨⟨⟨h1, h2⟩, h3⟩, h4⟩ b
    cases b <;> assumption
  · intro h
    exact ⟨⟨⟨h .src, h .tok⟩, h .pay⟩, h .out⟩

theorem Memory.wf_reset : Memory.wf State.reset = true := rfl

theorem Memory.wf_putByte {s : State} {b : Buf} {i : Nat} (v : Byte) (hi : i < s.capOf b) (h : Memory.wf s = true) :
    Memory.wf (s.putByte i v b) = true := by
  rw [Memory.wf_iff] at *
  intro b'
  have := h b'
  cases b <;> cases b' <;> first | exact this | exact Buffer.wf_put v hi this

theorem Memory.wf_writeTok {s : State} {bs : List Byte} (hb : bs.length ≤ tokCap) (h : Memory.wf s = true) :
    Memory.wf (s.writeTok bs) = true := by
  rw [Memory.wf_iff] at *
  intro b
  have := h b
  cases b <;> first | exact this | exact Buffer.wf_holding _ hb

theorem Memory.wf_writePay {s : State} {bs : List Byte} (n : Nat) (hb : bs.length ≤ s.caps.payCap)
    (h : Memory.wf s = true) : Memory.wf (s.writePay bs n) = true := by
  rw [Memory.wf_iff] at *
  intro b
  have := h b
  cases b <;> first | exact this | exact Buffer.wf_holding _ hb

theorem Memory.wf_writeOut {s : State} {bs : List Byte} (hb : bs.length ≤ s.caps.outCap) (h : Memory.wf s = true) :
    Memory.wf (s.writeOut bs) = true := by
  rw [Memory.wf_iff] at *
  intro b
  have := h b
  cases b <;> first | exact this | exact Buffer.wf_holding _ hb

theorem Memory.wf_dropTok {s : State} (h : Memory.wf s = true) : Memory.wf s.dropTok = true := by
  rw [Memory.wf_iff] at *
  intro b
  have := h b
  cases b <;> first | exact this | exact Buffer.wf_unspecified _ _

theorem Memory.wf_dropPay {s : State} (h : Memory.wf s = true) : Memory.wf s.dropPay = true := by
  rw [Memory.wf_iff] at *
  intro b
  have := h b
  cases b <;> first | exact this | exact Buffer.wf_unspecified _ _

theorem Memory.wf_dropOut {s : State} (h : Memory.wf s = true) : Memory.wf s.dropOut = true := by
  rw [Memory.wf_iff] at *
  intro b
  have := h b
  cases b <;> first | exact this | exact Buffer.wf_unspecified _ _

theorem Memory.wf_resetBlock (s : State) : Memory.wf s.resetBlock = true := rfl

end Sys2Proof.Machine
end

