-- ==== Sys2Proof/Laws/Operands.lean ====
section
/-! SUPPORT. The laws of the operand forms: symbols and bytes, code-table entries, packed bits and LE64. -/

namespace Sys2Proof.Machine

theorem byteOf_toNat (x : Sym) : (byteOf x).toNat = x.val := by
  simp [byteOf]; omega

/-- Every symbol is the symbol of its byte. -/
theorem symOf_byteOf (x : Sym) : symOf (byteOf x) = some x := by
  simp [symOf, byteOf_toNat]

theorem symOf_some {b : Byte} {x : Sym} (h : symOf b = some x) : b = byteOf x := by
  unfold symOf at h
  split at h
  · cases h; apply BitVec.eq_of_toNat_eq; simp [byteOf_toNat]
  · cases h

/-- A byte is no symbol exactly when bit 7 is set (R98). -/
theorem symOf_none {b : Byte} : symOf b = none ↔ 128 ≤ b.toNat := by
  unfold symOf; split <;> simp <;> omega

theorem byteOf_inj {x y : Sym} (h : byteOf x = byteOf y) : x = y := by
  have := congrArg symOf h; simpa [symOf_byteOf] using this

/-- A list of bytes is the bytes of symbols, or holds one of 128 or more. -/
theorem bytes_cases (bs : List Byte) : (∃ xs : List Sym, bs = xs.map byteOf) ∨ ∃ b ∈ bs, 128 ≤ b.toNat := by
  induction bs with
  | nil => exact .inl ⟨[], rfl⟩
  | cons b bs ih =>
    cases h : symOf b with
    | none => exact .inr ⟨b, by simp, symOf_none.1 h⟩
    | some x =>
      obtain ⟨xs, rfl⟩ | ⟨c, hc, h'⟩ := ih
      · exact .inl ⟨x :: xs, by simp [symOf_some h]⟩
      · exact .inr ⟨c, by simp [hc], h'⟩

theorem State.source_length (s : State) :
    s.source.length = s.srcLen.toNat := by simp [State.source, Buffer.length_bytes]

/-- Bit `127 − j` of the field is code bit `j` (R97), and 0 beyond the code. -/
theorem leftAlign_bit (p : List Bool) (j : Nat) (hj : j < 128) :
    (leftAlign p).getLsbD (127 - j) = (p[j]?).getD false := by
  induction p generalizing j with
  | nil => simp [leftAlign]
  | cons b bs ih =>
    unfold leftAlign
    rw [BitVec.getLsbD_or, BitVec.getLsbD_ushiftRight]
    rcases j with _ | j
    · have : (leftAlign bs).getLsbD (1 + (127 - 0)) = false := BitVec.getLsbD_of_ge _ _ (by omega)
      rw [this]
      cases b <;> simp
    · have e : 1 + (127 - (j + 1)) = 127 - j := by omega
      rw [e, ih j (by omega)]
      have : (if b = true then (1#128 <<< 127) else 0#128).getLsbD (127 - (j + 1)) = false := by
        cases b
        · simp
        · simp only [if_true, BitVec.getLsbD_shiftLeft]
          rw [show decide (127 - (j + 1) < 127) = true by simp; omega]; simp
      rw [this]; simp

theorem entryOfBits_len (p : List Bool) (h : p.length < 256) : (entryOfBits p).len.toNat = p.length := by
  simp [entryOfBits]; omega

/-- A code written to an entry reads back. -/
theorem entryPath_entryOfBits (p : List Bool) (h : p.length ≤ 127) : entryPath (entryOfBits p) = p := by
  unfold entryPath
  rw [entryOfBits_len p (by omega)]
  apply List.ext_getElem
  · simp
  · intro i h1 h2
    simp only [List.getElem_map, List.getElem_range]
    show (leftAlign p).getLsbD (127 - i) = _
    rw [leftAlign_bit p i (by omega)]
    simp [h2]

theorem entryOfBits_low (p : List Bool) (j : Nat) (h : j + p.length < 128) :
    (entryOfBits p).bits.getLsbD j = false := by
  have := leftAlign_bit p (127 - j) (by omega)
  rw [show 127 - (127 - j) = j by omega] at this
  show (leftAlign p).getLsbD j = false
  rw [this]
  have : p.length ≤ 127 - j := by omega
  simp [this]

theorem packByte_high (k : Nat) (bits : List Bool) (i : Nat) (h : k ≤ i) : (packByte k bits).getLsbD i = false := by
  induction k generalizing bits with
  | zero => simp [packByte]
  | succ k ih =>
    cases bits with
    | nil => simp [packByte]
    | cons b bs =>
      rw [packByte, BitVec.getLsbD_or, ih bs (by omega)]
      cases b
      · simp
      · simp only [if_true, BitVec.getLsbD_shiftLeft, BitVec.getLsbD_one]
        have : (i - k == 0) = false := by simp; omega
        simp; omega

/-- Bit `k − 1 − j` of the byte is stream bit `j`, and 0 beyond the stream (R66, R96). -/
theorem packByte_bit (k : Nat) (bits : List Bool) (j : Nat) (hk : k ≤ 8) (hj : j < k) :
    (packByte k bits).getLsbD (k - 1 - j) = (bits[j]?).getD false := by
  induction k generalizing bits j with
  | zero => omega
  | succ k ih =>
    cases bits with
    | nil => simp [packByte]
    | cons b bs =>
      rw [packByte, BitVec.getLsbD_or]
      rcases j with _ | j
      · rw [packByte_high k bs (k + 1 - 1 - 0) (by omega)]
        cases b
        · simp
        · simp [BitVec.getLsbD_shiftLeft]; omega
      · have := ih bs j (by omega) (by omega)
        rw [show k + 1 - 1 - (j + 1) = k - 1 - j by omega, this]
        have h0 : (if b = true then 1#8 <<< k else 0#8).getLsbD (k - 1 - j) = false := by
          cases b
          · simp
          · simp only [if_true, BitVec.getLsbD_shiftLeft]
            rw [show decide (k - 1 - j < k) = true by simp; omega]; simp
        rw [h0]; simp

theorem packBits_length (bits : List Bool) : (packBits bits).length = ceil8 bits.length := by simp [packBits]

/-- The packed payload holds the stream, and 0 in its padding bits (R66, R96). -/
theorem streamBit_packBits (bits : List Bool) (d i : Nat) (h : i < 8 * ceil8 bits.length) :
    streamBit (Buffer.holding (packBits bits) d) i = (bits[i]?).getD false := by
  unfold streamBit
  have h8 : i / 8 < (packBits bits).length := by rw [packBits_length]; omega
  rw [Buffer.get_holding _ _ _ h8]
  simp only [packBits, List.getElem_map, List.getElem_range]
  have := packByte_bit 8 (bits.drop (8 * (i / 8))) (i % 8) le_rfl (by omega)
  rw [show 8 - 1 - i % 8 = 7 - i % 8 by omega] at this
  rw [this, List.getElem?_drop]
  rw [show 8 * (i / 8) + i % 8 = i by omega]

theorem entryPath_length (e : CodeEntry) : (entryPath e).length = e.len.toNat := by simp [entryPath]

theorem le64_length (v : Word) : (le64 v).length = 8 := by simp [le64]

/-- `U64` is the inverse of `LE64` (R102). -/
theorem u64_le64 (v : Word) : u64 (le64 v) = v.toNat := by
  simp only [le64, List.range, List.range.loop, List.map, u64, BitVec.extractLsb'_toNat]
  simp
  omega

end Sys2Proof.Machine
end

