-- ==== Sys2Proof/Laws/PerInstr.lean ====
section
/-! SUPPORT. One lemma per command about its encoding. -/

namespace Sys2Proof.Laws.Encoding

/-- A command is well formed and the decoder reads it back from its word. -/
def Statement (i : Instr) : Prop := i.wf = true ∧ decode (encode i) = .command i

theorem count : Statement .count := ⟨rfl, rfl⟩
theorem build : Statement .build := ⟨rfl, rfl⟩
theorem gencodes : Statement .gencodes := ⟨rfl, rfl⟩
theorem serialize : Statement .serialize := ⟨rfl, rfl⟩
theorem encode : Statement .encode := ⟨rfl, rfl⟩
theorem deserialize : Statement .deserialize := ⟨rfl, rfl⟩
theorem decode : Statement .decode := ⟨rfl, rfl⟩
theorem compress : Statement .compress := ⟨rfl, rfl⟩
theorem decompress : Statement .decompress := ⟨rfl, rfl⟩
theorem clrerr : Statement .clrerr := ⟨rfl, rfl⟩
theorem srst : Statement .srst := ⟨rfl, rfl⟩

end Sys2Proof.Laws.Encoding
end

