-- ==== Sys2Proof/Laws/Results.lean ====
section
/-! SUPPORT. What each stage of the commands can answer: the destinations it writes, the errors it raises, and how the
composite commands chain. -/

namespace Sys2Proof.Machine

/-- What a successful stage leaves alone: everything but the destinations named. -/
theorem countResult_frame {s t} (h : countResult s = .ok t) : t = { s with cnt := t.cnt } := by
  unfold countResult at h; split at h <;> cases h; rfl

theorem buildResult_frame {s t} (h : buildResult s = .ok t) :
    t = { s with tree := t.tree, treeValid := t.treeValid, code := t.code } := by
  unfold buildResult at h; split at h <;> cases h; rfl

theorem gencodesResult_frame {s t} (h : gencodesResult s = .ok t) : t = { s with code := t.code } := by
  unfold gencodesResult at h; split at h <;> cases h; rfl

theorem serializeResult_frame {s t} (h : serializeResult s = .ok t) :
    t = { s with tok := t.tok, tokLen := t.tokLen, draws := t.draws } := by
  unfold serializeResult at h; split at h <;> cases h; rfl

theorem encodeResult_frame {s t} (h : encodeResult s = .ok t) :
    t = { s with pay := t.pay, payLen := t.payLen, bitLen := t.bitLen, draws := t.draws } := by
  unfold encodeResult at h; split at h <;> cases h; rfl

theorem deserializeResult_frame {s t} (h : deserializeResult s = .ok t) :
    t = { s with tree := t.tree, treeValid := t.treeValid, code := t.code } := by
  unfold deserializeResult at h; split at h <;> cases h; rfl

theorem decodeResult_frame {s t} (h : decodeResult s = .ok t) :
    t = { s with out := t.out, outLen := t.outLen, draws := t.draws } := by
  unfold decodeResult at h; split at h <;> [skip; cases h]
  split at h
  · cases h
  · split at h <;> cases h; rfl

theorem countResult_error {s e} (h : countResult s = .error e) : e = .symbolRange := by
  unfold countResult at h; split at h <;> cases h; rfl

theorem gencodesResult_error {s e} (h : gencodesResult s = .error e) : e = .sequence ∧ s.treeValid = false := by
  unfold gencodesResult at h; split at h
  · cases h
  · cases h; exact ⟨rfl, by simp_all⟩

theorem serializeResult_error {s e} (h : serializeResult s = .error e) : e = .sequence ∧ s.treeValid = false := by
  unfold serializeResult at h; split at h
  · cases h
  · cases h; exact ⟨rfl, by simp_all⟩

theorem deserializeResult_error {s e} (h : deserializeResult s = .error e) : e = .invalidFormat := by
  unfold deserializeResult at h; split at h <;> cases h; rfl

/-- A composite succeeds through each of its stages. -/
theorem bind_eq_ok {α β} {x : Except ErrKind α} {f : α → Except ErrKind β} {b : β} (h : x >>= f = .ok b) :
    ∃ a, x = .ok a ∧ f a = .ok b := by
  cases x with
  | error e => cases h
  | ok a => exact ⟨a, rfl, h⟩

/-- A composite fails at the first stage that raises. -/
theorem bind_eq_error {α β} {x : Except ErrKind α} {f : α → Except ErrKind β} {e} (h : x >>= f = .error e) :
    x = .error e ∨ ∃ a, x = .ok a ∧ f a = .error e := by
  cases x with
  | error e' => left; cases h; rfl
  | ok a => exact .inr ⟨a, rfl, h⟩

/-- On symbols every count goes up by the number of occurrences, mod 2^64 (R110). -/
theorem tally_ok (xs : List Sym) (acc : Vector Word 128) :
    ∃ v, tally (xs.map byteOf) acc = some v ∧ ∀ x : Sym, v[x] = acc[x] + BitVec.ofNat 64 (xs.count x) := by
  induction xs generalizing acc with
  | nil => exact ⟨acc, rfl, by simp⟩
  | cons y ys ih =>
    obtain ⟨c, hc, h⟩ := ih (acc.set y (acc[y] + 1))
    refine ⟨c, by simp [tally, symOf_byteOf]; simpa using hc, ?_⟩
    intro x
    rw [h x]
    by_cases hxy : y = x
    · subst hxy
      simp
      apply BitVec.eq_of_toNat_eq; simp [BitVec.toNat_add]; omega
    · have : (y : Nat) ≠ x := fun h => hxy (Fin.ext h)
      simp [hxy, this]

/-- A byte of 128 or more ends the tally (R112). -/
theorem tally_none (bs : List Byte) (acc) (b) (hb : b ∈ bs) (h : 128 ≤ b.toNat) : tally bs acc = none := by
  induction bs generalizing acc with
  | nil => simp at hb
  | cons c cs ih =>
    unfold tally
    cases hc : symOf c with
    | none => rfl
    | some x =>
      simp only
      apply ih
      rcases List.mem_cons.1 hb with rfl | hb
      · have := symOf_none.2 h; simp [this] at hc
      · exact hb

end Sys2Proof.Machine
end

