-- ==== Sys2Proof/Laws/Step.lean ====
section
/-! SUPPORT. What the shared operations and the step can do, each said once: the lemmas to cite instead of unfolding
them. -/

namespace Sys2Proof.Machine

/-- A command ends either in the state its pseudocode computed or in its failure rule with the error recorded. -/
theorem conclude_cases (fail : State → State) (s : State) (r : Except ErrKind State) :
    (∃ t, r = .ok t ∧ conclude fail s r = t) ∨
    (∃ e, r = .error e ∧ conclude fail s r = (fail s).setErr e) := by
  cases r with
  | ok t => exact .inl ⟨t, rfl, rfl⟩
  | error e => exact .inr ⟨e, rfl, rfl⟩

/-- No command faults and none is refused. -/
theorem exec_answers_next (i : Instr) (s : State) : ∃ t, exec i s = .next t := by
  cases i <;> exact ⟨_, rfl⟩

/-- What completion does: a fault when PENDING is no command, else the command and then `finish`. -/
theorem complete_cases (s : State) :
    (∃ op, decode s.pending = .illegal op ∧ complete s = .fault (.pendingIsNoCommand op)) ∨
    (∃ i t, decode s.pending = .command i ∧ exec i s = .next t ∧ complete s = .next t.finish) := by
  unfold complete
  cases hd : decode s.pending with
  | illegal op => exact .inl ⟨op, rfl, rfl⟩
  | command i =>
    obtain ⟨t, ht⟩ := exec_answers_next i s
    exact .inr ⟨i, t, rfl, ht, by simp [ht]⟩

/-- What the core's turn does when it answers a next state: nothing when BUSY = 0, else it completes a command. -/
theorem coreTurn_next {s t : State} (h : coreTurn s = .next t) :
    (s.busy = false ∧ t = s) ∨
    (s.busy = true ∧ ∃ i u, decode s.pending = .command i ∧ exec i s = .next u ∧ t = u.finish) := by
  unfold coreTurn at h
  split at h
  · next hb =>
    obtain ⟨op, _, hc⟩ | ⟨i, u, hd, he, hc⟩ := complete_cases s
    · rw [hc] at h; cases h
    · rw [hc] at h; cases h; exact .inr ⟨hb, i, u, hd, he, rfl⟩
  · next hb => cases h; exact .inl ⟨by simpa using hb, rfl⟩

/-- A host access while BUSY = 1 that answers a next state is a STATUS read. -/
theorem busyAccess_next {a : Access} {s t : State} (h : busyAccess a s = .next t) :
    a = .readStatus ∧ t = s.answer (.status s.status) := by
  unfold busyAccess at h
  split at h
  · next ha => cases h; exact ⟨ha, rfl⟩
  · cases h

/-- What a step does when it answers a next state: the core's turn, a host access or a reset, on the state whose first
turn is taken. -/
theorem step_next {s t : State} (h : step s = .next t) :
    (s.turns = [] ∧ coreTurn s = .next t) ∨
    (∃ ts, s.turns = .core :: ts ∧ coreTurn { s with turns := ts } = .next t) ∨
    (∃ ts, s.turns = .reset :: ts ∧ t = State.resetBlock { s with turns := ts }) ∨
    (∃ a ts, s.turns = .host a :: ts ∧ hostAccess a { s with turns := ts } = .next t) := by
  unfold step advance at h
  cases hs : s.turns with
  | nil => rw [hs] at h; exact .inl ⟨rfl, h⟩
  | cons x ts =>
    rw [hs] at h
    cases x with
    | core => exact .inr (.inl ⟨ts, rfl, h⟩)
    | reset => simp only [takeTurn] at h; cases h; exact .inr (.inr (.inl ⟨ts, rfl, rfl⟩))
    | host a => exact .inr (.inr (.inr ⟨a, ts, rfl, h⟩))

end Sys2Proof.Machine
end

