-- ==== Sys2Proof/Laws/Run.lean ====
section
/-! SUPPORT. That no turn is placed by the block, and that the run to the end does end (spec/00_scope.md R13). -/

namespace Sys2Proof.Machine

theorem compressResult_turns {s t : State} (h : compressResult s = .ok t) : t.turns = s.turns := by
  obtain ⟨d, h, h5⟩ := bind_eq_ok h
  obtain ⟨c, h, h4⟩ := bind_eq_ok h
  obtain ⟨b, h, h3⟩ := bind_eq_ok h
  obtain ⟨a, h1, h2⟩ := bind_eq_ok h
  rw [serializeResult_frame h5, encodeResult_frame h4, gencodesResult_frame h3, buildResult_frame h2, countResult_frame h1]

theorem decompressResult_turns {s t : State} (h : decompressResult s = .ok t) : t.turns = s.turns := by
  obtain ⟨a, h1, h2⟩ := bind_eq_ok h
  rw [decodeResult_frame h2, deserializeResult_frame h1]

/-- A command keeps what both its result and its failure rule keep. -/
theorem conclude_turns {fail : State → State} {s : State} {r : Except ErrKind State} (hf : (fail s).turns = s.turns)
    (hr : ∀ t, r = .ok t → t.turns = s.turns) : (conclude fail s r).turns = s.turns := by
  obtain ⟨t, h, hc⟩ | ⟨e, _, hc⟩ := conclude_cases fail s r
  · rw [hc]; exact hr t h
  · rw [hc]; exact hf

/-- No command touches the host's turns. -/
theorem exec_turns {i : Instr} {s t : State} (h : exec i s = .next t) : t.turns = s.turns := by
  cases i <;> cases h
  · exact conclude_turns rfl fun t h => by rw [countResult_frame h]
  · exact conclude_turns rfl fun t h => by rw [buildResult_frame h]
  · exact conclude_turns rfl fun t h => by rw [gencodesResult_frame h]
  · exact conclude_turns rfl fun t h => by rw [serializeResult_frame h]
  · exact conclude_turns rfl fun t h => by rw [encodeResult_frame h]
  · exact conclude_turns rfl fun t h => by rw [deserializeResult_frame h]
  · exact conclude_turns rfl fun t h => by rw [decodeResult_frame h]
  · exact conclude_turns rfl fun t h => compressResult_turns h
  · exact conclude_turns rfl fun t h => decompressResult_turns h
  · rfl
  · rfl

/-- After the core's turn BUSY = 0, and the turns are as before. -/
theorem coreTurn_idle {s t : State} (h : coreTurn s = .next t) : t.busy = false ∧ t.turns = s.turns := by
  obtain ⟨hb, rfl⟩ | ⟨_, i, u, _, he, rfl⟩ := coreTurn_next h
  · exact ⟨hb, rfl⟩
  · exact ⟨rfl, (exec_turns he :)⟩

theorem writeCmd_turns (op : Byte) (s : State) : (writeCmd op s).turns = s.turns := by
  unfold writeCmd
  split <;> split <;> rfl

/-- No host access places or takes a turn. -/
theorem hostAccess_turns {a : Access} {s t : State} (h : hostAccess a s = .next t) : t.turns = s.turns := by
  unfold hostAccess at h
  split at h
  · obtain ⟨_, rfl⟩ := busyAccess_next h; rfl
  · cases a <;> simp only [idleAccess, reduceCtorEq] at h
    case writeCmd op => cases h; exact writeCmd_turns op s
    case writeReg r v =>
      unfold writeReg at h
      split at h <;> [cases h; split at h] <;> cases h
      cases r <;> rfl
    case readByte b i =>
      unfold readByte at h
      split at h <;> [cases h; split at h] <;> cases h <;> rfl
    case writeByte b i v =>
      unfold writeByte at h
      split at h <;> [cases h; split at h] <;> cases h
      cases b <;> rfl
    all_goals cases h; rfl

/-- A step takes the first turn; with none left it leaves BUSY = 0. -/
theorem step_turns {s t : State} (h : step s = .next t) :
    t.turns = s.turns.tail ∧ (s.turns = [] → t.busy = false) := by
  obtain ⟨h0, h⟩ | ⟨ts, h0, h⟩ | ⟨ts, h0, rfl⟩ | ⟨a, ts, h0, h⟩ := step_next h
  · obtain ⟨hb, ht⟩ := coreTurn_idle h
    exact ⟨by rw [ht, h0]; rfl, fun _ => hb⟩
  · exact ⟨by rw [(coreTurn_idle h).2, h0]; rfl, by simp [h0]⟩
  · exact ⟨by rw [h0]; rfl, by simp [h0]⟩
  · exact ⟨by rw [hostAccess_turns h, h0]; rfl, by simp [h0]⟩

/-- With a step for every turn and one more the run reaches its end. -/
theorem runToEnd_ended {n : Nat} {s t : State} (hn : s.turns.length < n ∨ Ended s = true)
    (h : runToEnd n s = .next t) : Ended t = true := by
  induction n generalizing s with
  | zero => cases h; simpa using hn
  | succ n ih =>
    unfold runToEnd at h
    split at h
    · next he => cases h; exact he
    · next he =>
      have hn := hn.resolve_right he
      split at h
      · next u hu =>
        obtain ⟨ht, hb⟩ := step_turns hu
        refine ih ?_ h
        cases hs : s.turns with
        | nil => exact .inr (by simp [Ended, ht, hs, hb hs])
        | cons x xs => exact .inl (by rw [hs] at hn; simp [ht, hs] at hn ⊢; omega)
      · cases h
      · cases h

/-- The end of a run is a state in which the run has ended (R13). -/
theorem endOfRun_ended {s t : State} (h : endOfRun s = .next t) : Ended t = true :=
  runToEnd_ended (.inl (Nat.lt_succ_self _)) h

/-- A run has gone wrong exactly when it ends with ERR ≠ 0 or does not reach its end. -/
theorem goneWrong_iff (s : State) : goneWrong s = true ↔ ∀ t, endOfRun s = .next t → t.err ≠ none := by
  unfold goneWrong
  cases endOfRun s <;> simp [Option.isSome_iff_ne_none]

end Sys2Proof.Machine
end

