-- ==== Sys2Proof/Laws/Trees.lean ====
section
/-! SUPPORT. The laws of trees: sizes, the parser against the grammar, the walk against the paths. -/

namespace Sys2Proof.Machine

theorem leaves_pos (t : HuffTree) : 1 ≤ (leaves t).length := by
  induction t with
  | leaf => simp [leaves]
  | node l r hl hr => simp [leaves]; omega

/-- There are 128 symbols. -/
theorem length_le_of_nodup (l : List Sym) (h : l.Nodup) : l.length ≤ 128 := by
  have := h.length_le_card; simpa using this

theorem noRepeats_iff (l : List Sym) : noRepeats l = true ↔ l.Nodup := by
  induction l with
  | nil => simp [noRepeats]
  | cons x xs ih => simp [noRepeats, ih]

/-- Validity as a proposition (R39). -/
theorem treeOk_iff (t : HuffTree) : treeOk t = true ↔ isNode t = true ∧ (leaves t).Nodup := by
  simp [treeOk, noRepeats_iff]

theorem two_le_leaves {t} (h : isNode t = true) : 2 ≤ (leaves t).length := by
  cases t with
  | leaf => simp [isNode] at h
  | node l r => have := leaves_pos l; have := leaves_pos r; simp [leaves]; omega

/-- N leaves, N − 1 internal nodes (R39). -/
theorem internalNodes_leaves (t : HuffTree) : internalNodes t + 1 = (leaves t).length := by
  induction t with
  | leaf => rfl
  | node l r hl hr => simp [internalNodes, leaves]; omega

/-- A tree is less high than it has leaves. -/
theorem height_lt_leaves (t : HuffTree) : height t + 1 ≤ (leaves t).length := by
  induction t with
  | leaf => simp [height, leaves]
  | node l r hl hr => have := leaves_pos l; have := leaves_pos r; simp [height, leaves]; omega

theorem byteOf_ne_open (x : Sym) : byteOf x ≠ openByte := by
  intro h; have := congrArg BitVec.toNat h; rw [byteOf_toNat] at this; simp [openByte] at this; omega

/-- The parser reads every stream of the grammar, whatever follows it (R92, R151). -/
theorem parse_complete {b t} (h : TokenStream b t) (fuel : Nat) (hf : b.length ≤ fuel) (rest : List Byte) :
    parse fuel (b ++ rest) = some (t, rest) := by
  induction h generalizing fuel rest with
  | leaf x =>
    cases fuel with
    | zero => simp at hf
    | succ fuel =>
      show parse (fuel + 1) (0x80 :: byteOf x :: 0x81 :: rest) = _
      unfold parse
      rw [if_neg (by simp [openByte]), if_neg (byteOf_ne_open x)]
      simp [parseLeaf, symOf_byteOf, parseClose, closeByte]
  | @node bl br l r f hl hr ihl ihr =>
    cases fuel with
    | zero => simp at hf
    | succ fuel =>
      have hbl : ∃ bl', bl = 0x80 :: bl' := by cases hl <;> exact ⟨_, rfl⟩
      obtain ⟨bl', hbl⟩ := hbl
      simp at hf
      have e : [0x80] ++ bl ++ [f] ++ br ++ [0x81] ++ rest = 0x80 :: 0x80 :: (bl' ++ [f] ++ br ++ [0x81] ++ rest) := by
        rw [hbl]; simp
      rw [e]
      unfold parse
      rw [if_neg (by simp [openByte]), if_pos (by simp [openByte])]
      have e2 : (0x80 :: (bl' ++ [f] ++ br ++ [0x81] ++ rest) : List Byte) = bl ++ (f :: (br ++ (0x81 :: rest))) := by
        rw [hbl]; simp
      rw [e2]
      unfold parseNode
      rw [ihl fuel (by omega)]
      simp only
      rw [ihr fuel (by omega)]
      simp [parseClose, closeByte]

theorem parseClose_some {t u bs rest} (h : parseClose t bs = some (u, rest)) : u = t ∧ bs = 0x81 :: rest := by
  unfold parseClose at h
  split at h
  · cases h
  · split at h
    · next hb => cases h; exact ⟨rfl, by rw [hb]; rfl⟩
    · cases h

/-- What the parser reads is a stream of the grammar, and it gives the tree the stream denotes. -/
theorem parse_sound (fuel : Nat) (bs rest : List Byte) (t : HuffTree) (h : parse fuel bs = some (t, rest)) :
    ∃ b, bs = b ++ rest ∧ TokenStream b t := by
  induction fuel generalizing bs rest t with
  | zero => simp [parse] at h
  | succ fuel ih =>
    rcases bs with _ | ⟨b, _ | ⟨c, tl⟩⟩
    · simp [parse] at h
    · simp [parse] at h
    · unfold parse at h
      split at h
      · cases h
      · next hb =>
        have hb : b = 0x80 := by simpa [openByte] using hb
        subst hb
        split at h
        · unfold parseNode at h
          split at h
          · cases h
          · cases h
          · next l f after hp =>
            obtain ⟨b1, e1, s1⟩ := ih _ _ _ hp
            split at h
            · cases h
            · next r rest' hp2 =>
              obtain ⟨b2, e2, s2⟩ := ih _ _ _ hp2
              obtain ⟨rfl, e3⟩ := parseClose_some h
              refine ⟨[0x80] ++ b1 ++ [f] ++ b2 ++ [0x81], ?_, .node f s1 s2⟩
              rw [e1, e2, e3]; simp
        · unfold parseLeaf at h
          split at h
          · cases h
          · next x hx =>
            obtain ⟨rfl, e3⟩ := parseClose_some h
            refine ⟨[0x80, byteOf x, 0x81], ?_, .leaf x⟩
            rw [e3, symOf_some hx]; simp

/-- `Walk` writes the path of every leaf, and nothing else (R135, R136). -/
theorem walk_iff (t : HuffTree) (p q : List Bool) (x : Sym) :
    (x, q) ∈ walk t p ↔ ∃ r, q = p ++ r ∧ PathTo t r x := by
  induction t generalizing p q with
  | leaf s =>
    simp only [walk, List.mem_singleton, Prod.mk.injEq]
    constructor
    · rintro ⟨rfl, rfl⟩; exact ⟨[], by simp, .leaf _⟩
    · rintro ⟨r, rfl, h⟩; cases h; simp
  | node l r hl hr =>
    simp only [walk, List.mem_append, hl, hr]
    constructor
    · rintro (⟨r', rfl, h⟩ | ⟨r', rfl, h⟩)
      · exact ⟨false :: r', by simp, .left h⟩
      · exact ⟨true :: r', by simp, .right h⟩
    · rintro ⟨r', rfl, h⟩
      cases h with
      | left h => exact .inl ⟨_, by simp, h⟩
      | right h => exact .inr ⟨_, by simp, h⟩

/-- `Walk` meets the leaves from left to right. -/
theorem walk_syms (t : HuffTree) (p : List Bool) : (walk t p).map Prod.fst = leaves t := by
  induction t generalizing p with
  | leaf s => rfl
  | node l r hl hr => simp [walk, leaves, hl, hr]

/-- An entry that is not written keeps its value. -/
theorem writeCodes_other (l : List (Sym × List Bool)) (v : Vector CodeEntry 128) (x : Sym) (h : x ∉ l.map Prod.fst) :
    (writeCodes l v)[x] = v[x] := by
  induction l generalizing v with
  | nil => rfl
  | cons a l ih =>
    obtain ⟨s, p⟩ := a
    simp only [List.map_cons, List.mem_cons, not_or] at h
    rw [writeCodes, ih _ h.2]
    have : (s : Nat) ≠ x := fun hh => h.1 (Fin.ext hh.symm)
    simp [this]

/-- An entry written once holds what was written. -/
theorem writeCodes_written (l : List (Sym × List Bool)) (v : Vector CodeEntry 128) (x : Sym) (p : List Bool)
    (hn : (l.map Prod.fst).Nodup) (h : (x, p) ∈ l) : (writeCodes l v)[x] = entryOfBits p := by
  induction l generalizing v with
  | nil => simp at h
  | cons a l ih =>
    obtain ⟨s, q⟩ := a
    simp only [List.map_cons, List.nodup_cons] at hn
    rw [writeCodes]
    rcases List.mem_cons.1 h with h | h
    · cases h
      rw [writeCodes_other _ _ _ hn.1]; simp
    · exact ih _ hn.2 h

theorem absentCodes_get (x : Sym) : absentCodes[x] = { len := 0, bits := 0 } := by simp [absentCodes, absentEntry]

end Sys2Proof.Machine
end

