-- ==== Sys2Proof/Tests/Slice0.lean ====
section
/-! SUPPORT. Tests: what WellFormed refuses, the words of the commands, one step per test with the results of
spec/95_test_vectors.md, and for every statement with hypotheses a witness that meets them. -/

namespace Sys2Proof.Tests

-- Each theorem is checked before the next is read: checked side by side, their threads' stacks take too much memory.
set_option Elab.async false

open Sys2Proof Sys2Proof.Machine

/-! ### WellFormed: one ill-formed term per check (R10, R29, R97) -/

theorem test_srcCap_zero_refused : Config.Caps.wf ⟨0, 1, 1⟩ = false := by decide
theorem test_srcCap_above_refused : Config.Caps.wf ⟨2 ^ 56 + 1, 1, 1⟩ = false := by decide
theorem test_payCap_zero_refused : Config.Caps.wf ⟨1, 0, 1⟩ = false := by decide
theorem test_payCap_above_refused : Config.Caps.wf ⟨1, 2 ^ 61 + 1, 1⟩ = false := by decide
theorem test_outCap_zero_refused : Config.Caps.wf ⟨1, 1, 0⟩ = false := by decide
theorem test_outCap_above_refused : Config.Caps.wf ⟨1, 1, 2 ^ 64⟩ = false := by decide
theorem test_caps_bounds_accepted : Config.Caps.wf ⟨1, 1, 1⟩ = true ∧ Config.Caps.largest.wf = true := by decide
theorem test_len_128_refused : CodeEntry.wf ⟨128, 0⟩ = false := by decide
theorem test_bits_below_the_code_refused : CodeEntry.wf ⟨2, 0xA0000000000000000000000000000000⟩ = false := by decide
theorem test_absent_with_bits_refused : CodeEntry.wf ⟨0, 1⟩ = false := by decide
theorem test_code_10_accepted : CodeEntry.wf ⟨2, 0x80000000000000000000000000000000⟩ = true := by decide

/-! ### Decoding: every word written bit by bit from R81 -/

theorem test_word_count : decodeTableWord 8 0b00000001 = some .count := by decide
theorem test_word_build : decodeTableWord 8 0b00000010 = some .build := by decide
theorem test_word_gencodes : decodeTableWord 8 0b00000011 = some .gencodes := by decide
theorem test_word_serialize : decodeTableWord 8 0b00000100 = some .serialize := by decide
theorem test_word_encode : decodeTableWord 8 0b00000101 = some .encode := by decide
theorem test_word_deserialize : decodeTableWord 8 0b00000110 = some .deserialize := by decide
theorem test_word_decode : decodeTableWord 8 0b00000111 = some .decode := by decide
theorem test_word_compress : decodeTableWord 8 0b00001000 = some .compress := by decide
theorem test_word_decompress : decodeTableWord 8 0b00001001 = some .decompress := by decide
theorem test_word_clrerr : decodeTableWord 8 0b00001110 = some .clrerr := by decide
theorem test_word_srst : decodeTableWord 8 0b00001111 = some .srst := by decide

/-- The edges of the illegal ranges of R83. -/
theorem test_illegal_words :
    [0x00, 0x0A, 0x0D, 0x10, 0x55, 0x81, 0xFF].map (decodeTableWord 8) = List.replicate 7 none := by decide

/-! ### Small states -/

/-- The capacities of the tests. -/
def caps16 : Config.Caps := ⟨16, 16, 16⟩

/-- An idle state with the given contents; a tree comes with its code table. -/
def sample (caps : Config.Caps := caps16) (src tok pay : List Byte := []) (bits : Nat := 0)
    (tree : Option HuffTree := none) (cnt : List (Sym × Word) := []) : State :=
  { State.reset with
    caps := caps
    src := .holding src 0, srcLen := BitVec.ofNat 64 src.length
    tok := .holding tok 0, tokLen := BitVec.ofNat 64 tok.length
    pay := .holding pay 0, payLen := BitVec.ofNat 64 pay.length, bitLen := BitVec.ofNat 64 bits
    treeValid := tree.isSome, tree := tree.getD (.leaf 0)
    code := match tree with
      | none => absentCodes
      | some t => codesOf t
    cnt := cnt.foldl (fun v p => v.set p.1 p.2) zeroCounts }

/-- The state after the step that runs the command word, if there is one. -/
def ran (op : Nat) (s : State) : Option State :=
  match step (s.withFetchWord 8 op) with
  | .next t => some t
  | .fault _ => none
  | .refused _ => none

/-- `(b a)`, `(c (a b))` and `((a b) c)` of spec/95_test_vectors.md. -/
def treeBA : HuffTree := .node (.leaf 0x62) (.leaf 0x61)
def treeCAB : HuffTree := .node (.leaf 0x63) (.node (.leaf 0x61) (.leaf 0x62))
def treeABC : HuffTree := .node (.node (.leaf 0x61) (.leaf 0x62)) (.leaf 0x63)

/-- The token stream of `(b a)` (V23). -/
def tokBA : List Byte := [0x80, 0x80, 0x62, 0x81, 0xFF, 0x80, 0x61, 0x81, 0x81]

/-- "aaab" and "abcabcabc". -/
def aaab : List Byte := [0x61, 0x61, 0x61, 0x62]
def abc3 : List Byte := [0x61, 0x62, 0x63, 0x61, 0x62, 0x63, 0x61, 0x62, 0x63]

/-! ### One step each; the expected results are those of spec/95_test_vectors.md -/

/-- V1, from a table that held other counts. -/
theorem test_count_aaab :
    (ran 0x01 (sample (src := aaab) (cnt := [(0x61, 7), (5, 9)]))).map
      (fun t => (t.cnt[0x61], t.cnt[0x62], t.cnt[5], t.status)) = some (3, 1, 0, 0) := by decide +kernel

/-- V4. -/
theorem test_count_range :
    (ran 0x01 (sample (src := [0x61, 0x80, 0x62]))).map (fun t => (t.cnt[0x61], t.status)) =
      some (0, 0x50) := by decide +kernel

/-- V11: five equal weights; leaves before merged nodes, merged nodes in order of creation. -/
theorem test_build_ties :
    (ran 0x02 (sample (cnt := [(0x61, 5), (0x62, 5), (0x63, 5), (0x64, 5), (0x65, 5)]))).map
      (fun t => (t.tree, t.status)) =
      some (.node (.node (.leaf 0x63) (.leaf 0x64)) (.node (.leaf 0x65) (.node (.leaf 0x61) (.leaf 0x62))), 0x02) := by
  decide +kernel

/-- V13: a weight sum of 2^64, with a tree held before. -/
theorem test_build_capacity :
    (ran 0x02 (sample (tree := some treeBA) (cnt := [(0x61, 0xFFFFFFFFFFFFFFFF), (0x62, 1)]))).map
      (fun t => (t.code[0x61].len, t.status)) = some (0, 0x80) := by decide +kernel

/-- V19. -/
theorem test_gencodes :
    (ran 0x03 { sample (tree := some treeCAB) with code := absentCodes }).map
      (fun t => (t.code[0x63], t.code[0x61], t.code[0x62], t.code[0x64])) =
      some (⟨1, 0⟩, ⟨2, 0x80000000000000000000000000000000⟩, ⟨2, 0xC0000000000000000000000000000000⟩, ⟨0, 0⟩) := by
  decide +kernel

/-- V22. -/
theorem test_gencodes_sequence : (ran 0x03 sample).map State.status = some 0x60 := by decide +kernel

/-- V24. -/
theorem test_serialize :
    (ran 0x04 (sample (tree := some treeCAB))).map (fun t => (t.tokens, t.tokLen)) =
      some ([0x80, 0x80, 0x63, 0x81, 0xFF, 0x80, 0x80, 0x61, 0x81, 0xFF, 0x80, 0x62, 0x81, 0x81, 0x81], 15) := by
  decide +kernel

/-- V27. -/
theorem test_serialize_sequence :
    (ran 0x04 (sample (tok := tokBA))).map (fun t => (t.tokLen, t.status)) = some (0, 0x60) := by decide +kernel

/-- V47: the code of a symbol straddles the byte boundary, and the padding bit is 0. -/
theorem test_encode :
    (ran 0x05 (sample (src := abc3) (tree := some treeCAB))).map (fun t => (t.bitLen, t.pay.bytes t.payLen.toNat)) =
      some (15, [0xB5, 0xAC]) := by decide +kernel

/-- V55 (i) and (ii): with PAY_CAP = 1 the first failing byte decides. -/
theorem test_encode_first_failure :
    (ran 0x05 (sample ⟨16, 1, 16⟩ (src := [0x61, 0x61, 0x61, 0x61, 0x7A]) (tree := some treeCAB))).map State.status =
      some 0x32 ∧
    (ran 0x05 (sample ⟨16, 1, 16⟩ (src := [0x61, 0x61, 0x61, 0x61, 0x61, 0x7A]) (tree := some treeCAB))).map
      State.status = some 0x82 := by decide +kernel

/-- V33: the filler of the left subtree is 0x81. -/
theorem test_deserialize_filler :
    (ran 0x06 (sample
      (tok := [0x80, 0x80, 0x80, 0x61, 0x81, 0x81, 0x80, 0x62, 0x81, 0x81, 0xFF, 0x80, 0x63, 0x81, 0x81]))).map
      (fun t => (t.tree, t.status)) = some (treeABC, 0x02) := by decide +kernel

/-- V41, with a tree held before: a symbol on two leaves. -/
theorem test_deserialize_repeat :
    (ran 0x06 (sample (tree := some treeBA)
      (tok := [0x80, 0x80, 0x62, 0x81, 0xFF, 0x80, 0x62, 0x81, 0x81]))).map State.status = some 0x40 := by
  decide +kernel

/-- V57: the padding bit is not examined. -/
theorem test_decode :
    (ran 0x07 (sample (pay := [0xB5, 0xAD]) (bits := 15) (tree := some treeCAB))).map State.output = some abc3 := by
  decide +kernel

/-- V61: the payload ends inside a code. -/
theorem test_decode_mid_code :
    (ran 0x07 (sample (pay := [0xB5, 0xAC]) (bits := 13) (tree := some treeCAB))).map (fun t => (t.outLen, t.status)) =
      some (0, 0x42) := by decide +kernel

/-- V73. -/
theorem test_compress :
    (ran 0x08 (sample (src := aaab))).map
      (fun t => ((t.cnt[0x61], t.tree, t.code[0x61].len), t.bitLen, t.pay.bytes t.payLen.toNat, t.tokens, t.status)) =
      some ((3, treeBA, 1), 4, [0xE0], tokBA, 0x02) := by decide +kernel

/-- V82: the counts are withheld too. -/
theorem test_compress_single :
    (ran 0x08 (sample (src := [0x7A, 0x7A, 0x7A, 0x7A]))).map (fun t => (t.cnt[0x7A], t.status)) =
      some (0, 0x20) := by decide +kernel

/-- V83. -/
theorem test_decompress :
    (ran 0x09 (sample (tok := tokBA) (pay := [0xE0]) (bits := 4))).map (fun t => (t.output, t.tree, t.status)) =
      some (aaab, treeBA, 0x02) := by decide +kernel

/-- V86: the payload is short, and the tree that had parsed is lost too. -/
theorem test_decompress_short :
    (ran 0x09 (sample (tok := tokBA) (pay := [0xE0]) (bits := 9))).map (fun t => (t.outLen, t.status)) =
      some (0, 0x40) := by decide +kernel

/-- V94. -/
theorem test_clrerr :
    (ran 0x0E { sample (cnt := [(0x7A, 4)]) with err := some .singleSymbol }).map
      (fun t => (t.cnt[0x7A], t.status)) = some (4, 0) := by decide +kernel

/-- V96. -/
theorem test_srst :
    (ran 0x0F { sample (src := aaab) (tree := some treeBA) (cnt := [(0x7A, 4)]) with err := some .illegalCommand }).map
      (fun t => (t.cnt[0x7A], t.srcLen, t.code[0x61].len, t.status)) = some (0, 0, 0, 0) := by decide +kernel

/-- V97, V101. -/
theorem test_container :
    containerBytes (sample (tok := tokBA) (pay := [0xE0]) (bits := 4)) =
      [0x09, 0, 0, 0, 0, 0, 0, 0] ++ tokBA ++ [0x04, 0, 0, 0, 0, 0, 0, 0, 0xE0] ∧
    containerParse ([0x09, 0, 0, 0, 0, 0, 0, 0] ++ tokBA ++ [0x04, 0, 0, 0, 0, 0, 0, 0, 0xE0]) =
      some ⟨tokBA, 4, [0xE0]⟩ := by decide +kernel

/-- V105. -/
theorem test_le64 : le64 765 = [0xFD, 0x02, 0, 0, 0, 0, 0, 0] := by decide

/-! ### Witnesses: states and operands that meet the hypotheses of each statement, one per clause -/

/-- The state a command leaves. -/
def after (i : Instr) (s : State) : State :=
  match exec i s with
  | .next t => t
  | .fault _ => s
  | .refused _ => s

theorem exec_after (i : Instr) (s : State) : exec i s = .next (after i s) := by cases i <;> rfl

/-- The invariant but for CODE, as a check. -/
def invOk (s : State) : Bool :=
  s.caps.wf && Memory.wf s && (decide (s.lenOf .src ≤ s.capOf .src) && decide (s.lenOf .tok ≤ s.capOf .tok) &&
    decide (s.lenOf .pay ≤ s.capOf .pay) && decide (s.lenOf .out ≤ s.capOf .out)) &&
  (!s.treeValid || treeOk s.tree) &&
  (!s.busy || match decode s.pending with
    | .command i => s.err.isNone || runsOnError i
    | .illegal _ => false)

theorem inv_of_ok {s : State} (hd : CodeMatchesTree s) (h : invOk s = true) : StateInv s := by
  simp only [invOk, Bool.and_eq_true, Bool.or_eq_true, Bool.not_eq_true', decide_eq_true_eq] at h
  obtain ⟨⟨⟨⟨hc, hm⟩, ⟨⟨h1, h2⟩, h3⟩, h4⟩, ht⟩, hp⟩ := h
  refine ⟨hc, hm, fun b => by cases b <;> assumption, fun hv => ht.resolve_left (by simp [hv]), hd, fun hb => ?_⟩
  replace hp := hp.resolve_left (by simp [hb])
  cases hx : decode s.pending with
  | illegal op => rw [hx] at hp; cases hp
  | command i => exact ⟨i, rfl, by simpa [hx] using hp⟩

/-- A command in flight. -/
def flying (op : Byte) (s : State) : State := { s with busy := true, pending := op }

theorem witness_ResetSatisfiesTheInvariant :
    Config.Caps.wf ⟨1, 1, 1⟩ = true ∧ Config.Caps.largest.wf = true := by decide

theorem witness_StepKeepsTheInvariant :
    StateInv (flying 0x08 (sample (src := aaab))) ∧ ∃ t, step (flying 0x08 (sample (src := aaab))) = .next t :=
  ⟨inv_of_ok (.inl rfl) (by decide +kernel), _, rfl⟩

/-- Turns that build and code the tree `(b a)` from host weights: a run of six steps. -/
def turnsBA : List Turn :=
  [.host (.writeCnt 0x61 2), .host (.writeCnt 0x62 1), .host (.writeCmd 0x02), .core, .host (.writeCmd 0x03), .core]

/-- The end of a run that answers a next state. -/
def endOf (o : Host.Outcome State Fault Refusal) : Option State :=
  match o with
  | .next t => some t
  | .fault _ => none
  | .refused _ => none

theorem endOf_some {o : Host.Outcome State Fault Refusal} {f : State → Bool} (h : (endOf o).map f = some true) :
    ∃ t, o = .next t ∧ f t = true := by
  cases o with
  | next t => exact ⟨t, rfl, by simpa [endOf] using h⟩
  | fault _ => cases h
  | refused _ => cases h

theorem witness_CodeIsAbsentOrThatOfTheTreeInEveryRun :
    ∃ t, Sys2Proof.core.run 6 ({ State.reset with caps := caps16, turns := turnsBA } : State) = .next t ∧
      (t.code[0x61].len == 1 && t.treeValid) = true :=
  endOf_some (f := fun t => t.code[0x61].len == 1 && t.treeValid) (by decide +kernel)

theorem witness_ValidTreeInEveryRun :
    ∃ t, Sys2Proof.core.run 4 ({ State.reset with caps := caps16, turns := turnsBA } : State) = .next t ∧
      t.treeValid = true :=
  endOf_some (f := fun t => t.treeValid) (by decide +kernel)

theorem witness_OnlyAHostAccessStopsAStep :
    StateInv (flying 0x01 { sample with turns := [.host .readCmd] }) ∧ StateInv sample :=
  ⟨inv_of_ok (.inl rfl) (by decide +kernel), inv_of_ok (.inl rfl) (by decide +kernel)⟩

/-- ERR kept by a STATUS read, cleared by CLRERR, by SRST and by the hardware reset. -/
def failed : State := { sample with err := some .sequence }
theorem witness_ErrKeepsItsFirstCode :
    (StateInv { failed with turns := [.host .readStatus] } ∧
      ∃ t, step { failed with turns := [.host .readStatus] } = .next t ∧ t.err = some .sequence) ∧
    (StateInv (flying 0x0E failed) ∧ ∃ t, step (flying 0x0E failed) = .next t ∧ t.err = none) ∧
    (StateInv (flying 0x0F failed) ∧ ∃ t, step (flying 0x0F failed) = .next t ∧ t.err = none) ∧
    (StateInv { failed with turns := [.reset] } ∧ ∃ t, step { failed with turns := [.reset] } = .next t ∧ t.err = none) :=
  ⟨⟨inv_of_ok (.inl rfl) (by decide +kernel), _, rfl, rfl⟩, ⟨inv_of_ok (.inl rfl) (by decide +kernel), _, rfl, rfl⟩,
    ⟨inv_of_ok (.inl rfl) (by decide +kernel), _, rfl, rfl⟩, ⟨inv_of_ok (.inl rfl) (by decide +kernel), _, rfl, rfl⟩⟩

theorem witness_OnlyFiveCommandsReplaceAValidTree :
    (∃ t, step (flying 0x03 (sample (tree := some treeBA))) = .next t ∧ t.tree = treeBA) ∧
    (∃ t, step (flying 0x02 (sample (tree := some treeBA))) = .next t ∧ t.treeValid = false) := by
  refine ⟨⟨_, rfl, rfl⟩, endOf_some (f := fun t => !t.treeValid) ?_ |>.imp fun t h => ⟨h.1, by simpa using h.2⟩⟩
  decide +kernel

theorem witness_CommandsWriteOnlyTheirOwnSpaces :
    Instr.count ≠ .srst ∧ exec .count (sample (src := aaab)) = .next (after .count (sample (src := aaab))) :=
  ⟨by decide, exec_after _ _⟩

/-- States that differ in TREE, in a byte at the length register, and in BUSY. -/
theorem witness_CommandsReadOnlyMeaningfulState :
    Agree (sample (src := aaab))
      { sample (src := aaab) with tree := treeBA, busy := true, src := .holding (aaab ++ [0x63]) 9 } where
  caps := rfl
  treeValid := rfl
  err := rfl
  regs := fun r => by cases r <;> rfl
  cnt := rfl
  code := rfl
  draws := rfl
  bytes := by
    intro b i hi
    cases b
    · have : i < 4 := hi
      interval_cases i <;> rfl
    · rfl
    · rfl
    · rfl
  tree := by intro h; cases h

theorem witness_CommandsRaiseTheErrorsOfTheirRow :
    (sample.err = none ∧ ∃ t, exec .build sample = .next t) ∧ ErrKind.capacity ∈ mayRaise .compress :=
  ⟨⟨rfl, _, rfl⟩, by decide⟩

/-- The ends of the illegal ranges, and a state that is idle without an error. -/
theorem witness_IllegalOpcodesRaiseIllegalCommand :
    ((0x0A : Byte).toNat = 0x0A ∧ (0x0D : Byte).toNat = 0x0D ∧ 0x10 ≤ (0x10 : Byte).toNat ∧ 0x10 ≤ (0xFF : Byte).toNat) ∧
    sample.busy = false ∧ sample.err = none := by decide

theorem witness_CmdWriteIsJudgedInOrder :
    (flying 0x01 sample).busy = true ∧
    (failed.busy = false ∧ (0x0F : Byte) = 0x0F) ∧
    (failed.busy = false ∧ (0x0D : Byte) ≠ 0x0E ∧ (0x0D : Byte) ≠ 0x0F ∧ failed.err ≠ none) ∧
    (sample.busy = false ∧ sample.err = none ∧ decode 0x10 = .illegal 0x10) ∧
    (sample.busy = false ∧ sample.err = none ∧ decode 0x09 = .command .decompress) := by decide

theorem witness_StepRunsThePendingCommand :
    ((flying 0x01 sample).busy = true ∧ decode (flying 0x01 sample).pending = .command .count ∧
      (flying 0x01 sample).turns = []) ∧
    ({ flying 0x01 sample with turns := [.core] } : State).turns = [.core] ∧
    exec .count { flying 0x01 sample with turns := [] } = .next (after .count { flying 0x01 sample with turns := [] }) :=
  ⟨⟨rfl, by decide, rfl⟩, rfl, exec_after _ _⟩

theorem witness_PlacedCommandRunsNext :
    exec .compress { sample (src := aaab) with busy := true, pending := encode .compress } =
      .next (after .compress { sample (src := aaab) with busy := true, pending := encode .compress }) :=
  exec_after _ _

theorem witness_EveryAcceptedCommandCompletes :
    (StateInv (flying 0x08 sample) ∧ (flying 0x08 sample).turns = List.replicate 0 (.host .readStatus)) ∧
    StateInv { flying 0x08 sample with turns := List.replicate 2 (.host .readStatus) } :=
  ⟨⟨inv_of_ok (.inl rfl) (by decide +kernel), rfl⟩, inv_of_ok (.inl rfl) (by decide +kernel)⟩

/-- Each register at the end of its range (R44). -/
theorem witness_RegisterWritesStoreExactly :
    sample.busy = false ∧
    (sample.regBound .srcLen = some 16 ∧ (16 : Word).toNat ≤ 16) ∧
    (sample.regBound .tokLen = some 765 ∧ (765 : Word).toNat ≤ 765) ∧
    (sample.regBound .payLen = some 16 ∧ (0 : Word).toNat ≤ 16) ∧
    (sample.regBound .bitLen = some (2 ^ 64 - 1) ∧ (0xFFFFFFFFFFFFFFFF : Word).toNat ≤ 2 ^ 64 - 1) := by decide

/-- The last index of each writable buffer, and a state in which the length register covers it. -/
theorem witness_ByteWritesStoreExactly :
    sample.busy = false ∧ (15 < sample.capOf .src ∧ 764 < sample.capOf .tok ∧ 15 < sample.capOf .pay) ∧
    (let t := sample.putByte 15 0xAB .src
     let u : State := { t with srcLen := 16 }
     u.busy = false ∧ u.caps = t.caps ∧ u.bufOf .src = t.bufOf .src ∧ 15 < u.lenOf .src) := by decide

theorem witness_ReadsBeyondTheLengthAreFree :
    let s := sample (src := aaab)
    s.busy = false ∧ s.lenOf .src ≤ 4 ∧ 4 < s.capOf .src ∧ s.lenOf .out ≤ 15 ∧ 15 < s.capOf .out := by decide

/-- Each read that answers; and in an idle state the last byte below the length of each buffer, that of SRC at the
capacity, and one of OUT that DECODE wrote. -/
theorem witness_ReadsHaveNoSideEffect :
    ((∃ t, hostAccess .readStatus (flying 0x01 sample) = .next t) ∧ (∃ t, hostAccess (.readReg .outLen) sample = .next t) ∧
      (∃ t, hostAccess (.readCnt 0x7F) sample = .next t) ∧ (∃ t, hostAccess (.readCode 0) sample = .next t) ∧
      (∃ t, hostAccess (.readByte .src 3) (sample (src := aaab)) = .next t) ∧
      (∃ t, hostAccess (.readByte .src 4) (sample (src := aaab)) = .next t)) ∧
    (let s := sample ⟨4, 16, 16⟩ (src := aaab) (tok := tokBA) (pay := [0x9F]) (bits := 3) (tree := some treeCAB)
     let t := after .decode s
     t.busy = false ∧ (3 < t.caps.srcCap ∧ t.source[3]? = some 0x62) ∧ t.tokens[8]? = some 0x81 ∧
     (t.pay.bytes t.payLen.toNat)[0]? = some 0x9F ∧ (1 < t.caps.outCap ∧ t.output[1]? = some 0x63)) :=
  ⟨⟨⟨_, rfl⟩, ⟨_, rfl⟩, ⟨_, rfl⟩, ⟨_, rfl⟩, ⟨_, rfl⟩, ⟨_, rfl⟩⟩, by decide +kernel⟩

theorem witness_StatusLayout : sample.busy = false := by decide

theorem witness_HardwareResetActsAtAnyTime :
    ({ flying 0x08 sample with turns := [.reset, .core] } : State).turns = .reset :: [.core] := by decide

/-- A buffer filled to its capacity, and the empty list. -/
theorem witness_LoadFillsTheBuffer :
    sample.busy = false ∧ sample.caps.wf = true ∧ (List.replicate 16 (0xAB : Byte)).length ≤ sample.capOf .pay ∧
    ([] : List Byte).length ≤ sample.capOf .tok := by decide

/-- A source, and the empty source. -/
theorem witness_CountTalliesEverySymbol :
    (sample (src := aaab)).source = ([0x61, 0x61, 0x61, 0x62] : List Sym).map byteOf ∧
    sample.source = ([] : List Sym).map byteOf := by decide +kernel

/-- The least and the greatest byte out of range. -/
theorem witness_CountRejectsBytesOutOfRange :
    let s := sample (src := [0x61, 0x80, 0xFF])
    ((0x80 : Byte) ∈ s.source ∧ 128 ≤ (0x80 : Byte).toNat) ∧ (0xFF : Byte) ∈ s.source ∧ 128 ≤ (0xFF : Byte).toNat := by
  decide +kernel

/-- V14: the greatest legal sum. -/
def weightsV14 : List (Sym × Word) := [(0x61, 0x8000000000000000), (0x62, 0x7FFFFFFFFFFFFFFF)]
theorem sum_of_weightSum (cnt : Vector Word 128) : weightSum cnt = ∑ x : Sym, cnt[x].toNat := by
  rw [weightSum, ← List.ofFn_eq_map, List.sum_ofFn]

theorem witness_BuildRunsTheMergeLoop :
    2 ≤ (presentSymbols (sample (cnt := weightsV14)).cnt).length ∧
    ∑ x : Sym, (sample (cnt := weightsV14)).cnt[x].toNat < 2 ^ 64 := by
  rw [← sum_of_weightSum]; decide +kernel

theorem witness_BuiltTreeHasThePresentSymbols :
    2 ≤ (presentSymbols (sample (cnt := weightsV14)).cnt).length ∧
    ∑ x : Sym, (sample (cnt := weightsV14)).cnt[x].toNat < 2 ^ 64 ∧
    exec .build (sample (cnt := weightsV14)) = .next (after .build (sample (cnt := weightsV14))) :=
  ⟨witness_BuildRunsTheMergeLoop.1, witness_BuildRunsTheMergeLoop.2, exec_after _ _⟩

/-- V16 (a) and (c), V13. -/
theorem witness_BuildErrors :
    (∀ x : Sym, sample.cnt[x] = 0) ∧
    (let s := sample (cnt := [(0x7A, 0xFFFFFFFFFFFFFFFF)])
     s.cnt[(0x7A : Sym)] ≠ 0 ∧ ∀ x : Sym, x ≠ 0x7A → s.cnt[x] = 0) ∧
    (let s := sample (cnt := [(0x61, 0x8000000000000000), (0x62, 0x8000000000000000)])
     s.cnt[(0x61 : Sym)] ≠ 0 ∧ s.cnt[(0x62 : Sym)] ≠ 0 ∧ 2 ^ 64 ≤ ∑ z : Sym, s.cnt[z].toNat) := by
  simp only [← sum_of_weightSum]; decide +kernel

theorem witness_GencodesGivesEveryLeafItsPath :
    (sample (tree := some treeCAB)).treeValid = true ∧ treeOk (sample (tree := some treeCAB)).tree = true ∧
    PathTo treeCAB [true, false] 0x61 ∧ (0x64 : Sym) ∉ leaves treeCAB :=
  ⟨rfl, by decide, .right (.left (.leaf _)), by decide⟩

theorem witness_CodeTableIsPrefixFree :
    (sample (tree := some treeCAB)).treeValid = true ∧ treeOk treeCAB = true ∧
    exec .gencodes (sample (tree := some treeCAB)) = .next (after .gencodes (sample (tree := some treeCAB))) ∧
    (0x61 : Sym) ∈ leaves treeCAB ∧ (0x62 : Sym) ∈ leaves treeCAB ∧ (0x61 : Sym) ≠ 0x62 :=
  ⟨rfl, by decide, exec_after _ _, by decide, by decide, by decide⟩

theorem witness_CommandsThatNeedATreeRaiseSequence : sample.treeValid = false := by decide

/-- The smallest valid tree. -/
theorem witness_SerLengthAndMarkers : treeOk treeBA = true := by decide

theorem witness_SerializeWritesTheTokenStream :
    (sample (tree := some treeBA)).treeValid = true ∧ treeOk (sample (tree := some treeBA)).tree = true := by decide

/-- `(b a)` with the filler bytes 0x00, 0x80 and 0x81 (V30, V31, V32). -/
theorem stream_BA (filler : Byte) : TokenStream [0x80, 0x80, 0x62, 0x81, filler, 0x80, 0x61, 0x81, 0x81] treeBA :=
  .node filler (.leaf 0x62) (.leaf 0x61)

/-- The stream of the statements' witnesses. -/
def withTok (filler : Byte) : State := sample (tok := [0x80, 0x80, 0x62, 0x81, filler, 0x80, 0x61, 0x81, 0x81])
theorem tokens_withTok (filler : Byte) :
    (withTok filler).tokens = [0x80, 0x80, 0x62, 0x81, filler, 0x80, 0x61, 0x81, 0x81] := rfl

theorem witness_DeserializeAcceptsTheGrammar :
    TokenStream (withTok 0x80).tokens treeBA ∧ TokenStream (withTok 0x81).tokens treeBA ∧ treeOk treeBA = true :=
  ⟨stream_BA _, stream_BA _, by decide⟩

/-- The empty stream denotes no tree, and `80 61 81` (V36) one that is not valid. -/
theorem witness_DeserializeRejectsEverythingElse :
    (∀ t, TokenStream sample.tokens t → treeOk t = false) ∧
    (∀ t, TokenStream (sample (tok := [0x80, 0x61, 0x81])).tokens t → treeOk t = false) := by
  constructor
  · intro t h
    have h0 : sample.tokens = [] := rfl
    rw [h0] at h
    cases h
  · intro t h
    have h0 : (sample (tok := [0x80, 0x61, 0x81])).tokens = [0x80, 0x61, 0x81] := rfl
    rw [h0] at h
    have := parse_complete h 3 (by simp) []
    have h1 : parse 3 ([0x80, 0x61, 0x81] ++ []) = some (.leaf 0x61, []) := by decide
    rw [h1] at this
    cases this
    rfl

theorem witness_TokenStreamsAreSelfDelimiting :
    TokenStream tokBA treeBA ∧ TokenStream tokBA treeBA ∧ tokBA <+: tokBA :=
  ⟨stream_BA _, stream_BA _, List.prefix_refl _⟩

theorem witness_SerializeAndDeserializeRoundTrip :
    ((sample (tree := some treeBA)).treeValid = true ∧ treeOk (sample (tree := some treeBA)).tree = true) ∧
    TokenStream (withTok 0x00).tokens treeBA ∧ treeOk treeBA = true :=
  ⟨by decide, stream_BA _, by decide⟩

/-- A state with a tree, its codes, and room for two payload bytes exactly (V47). -/
def codedState : State := sample ⟨16, 2, 9⟩ (src := abc3) (tree := some treeCAB)
def abc3Syms : List Sym := [0x61, 0x62, 0x63, 0x61, 0x62, 0x63, 0x61, 0x62, 0x63]
theorem codedState_source : codedState.source = abc3Syms.map byteOf := by decide +kernel

theorem witness_EncodePacksTheCodesOfTheSource :
    codedState.caps.wf = true ∧ codedState.srcLen.toNat ≤ codedState.caps.srcCap ∧
    codedState.source = abc3Syms.map byteOf ∧ (∀ x ∈ abc3Syms, codedState.code[x].len ≠ 0) ∧
    (codeLength codedState.code abc3Syms + 7) / 8 ≤ codedState.caps.payCap := by decide +kernel

/-- V55 (i) and (ii), a byte of 128 or more, and a first byte without a code. -/
theorem witness_EncodeRaisesAtTheFirstFailingByte :
    (let s := sample ⟨16, 1, 16⟩ (src := [0x61, 0x61, 0x61, 0x61, 0x7A, 0x80]) (tree := some treeCAB)
     let xs : List Sym := [0x61, 0x61, 0x61, 0x61]
     s.source = xs.map byteOf ++ 0x7A :: [0x80] ∧ (∀ x ∈ xs, s.code[x].len ≠ 0) ∧
       (codeLength s.code xs + 7) / 8 ≤ s.caps.payCap ∧ (0x7A : Byte) = byteOf 0x7A ∧ s.code[(0x7A : Sym)].len = 0) ∧
    (let s := sample (src := [0x80])
     s.source = ([] : List Sym).map byteOf ++ 0x80 :: [] ∧ (codeLength s.code [] + 7) / 8 ≤ s.caps.payCap ∧
       128 ≤ (0x80 : Byte).toNat) ∧
    (let s := sample ⟨16, 1, 16⟩ (src := [0x61, 0x61, 0x61, 0x61, 0x61, 0x7A]) (tree := some treeCAB)
     let xs : List Sym := [0x61, 0x61, 0x61, 0x61]
     s.source = xs.map byteOf ++ 0x61 :: [0x7A] ∧ (∀ x ∈ xs, s.code[x].len ≠ 0) ∧
       (codeLength s.code xs + 7) / 8 ≤ s.caps.payCap ∧ (0x61 : Byte) = byteOf 0x61 ∧ s.code[(0x61 : Sym)].len ≠ 0 ∧
       s.caps.payCap < (codeLength s.code xs + s.code[(0x61 : Sym)].len.toNat + 7) / 8) := by decide +kernel

/-- V68 followed by V66: `10` is "a", `0` is "c". -/
theorem coded_ac : Coded treeCAB [true, false, false] [0x61, 0x63] :=
  .cons (p := [true, false]) (.right (.left (.leaf _))) (.cons (p := [false]) (.left (.leaf _)) .nil)
def acState (caps : Config.Caps) (bits : Nat) (pay : List Byte) : State :=
  sample caps (tok := [0x80, 0x80, 0x63, 0x81, 0x81, 0x80, 0x80, 0x61, 0x81, 0x80, 0x80, 0x62, 0x81, 0x81, 0x81])
    (pay := pay) (bits := bits) (tree := some treeCAB)

/-- OUT is filled to its capacity. -/
theorem witness_DecodeEmitsTheCodedSymbols :
    let s := acState ⟨16, 16, 2⟩ 3 [0x9F]
    s.treeValid = true ∧ isNode s.tree = true ∧ (s.bitLen.toNat + 7) / 8 ≤ s.payLen.toNat ∧
    Coded s.tree s.payloadBits [0x61, 0x63] ∧ ([0x61, 0x63] : List Sym).length ≤ s.caps.outCap ∧ s.caps.wf = true :=
  ⟨rfl, rfl, by decide, coded_ac, by decide, by decide⟩

/-- No tree; a payload one byte short; a code cut after one bit; a symbol too many. -/
theorem witness_DecodeErrors :
    sample.treeValid = false ∧
    (let s := acState caps16 9 [0x9F]
     s.treeValid = true ∧ s.payLen.toNat < (s.bitLen.toNat + 7) / 8) ∧
    (let s := acState caps16 4 [0x9F]
     s.treeValid = true ∧ isNode s.tree = true ∧ (s.bitLen.toNat + 7) / 8 ≤ s.payLen.toNat ∧
     s.payloadBits = [true, false, false] ++ [true] ∧ Coded s.tree [true, false, false] [0x61, 0x63] ∧
     2 ≤ s.caps.outCap ∧ ([true] : List Bool) ≠ [] ∧ Inside s.tree [true]) ∧
    (let s := acState ⟨16, 16, 1⟩ 3 [0x9F]
     s.treeValid = true ∧ isNode s.tree = true ∧ (s.bitLen.toNat + 7) / 8 ≤ s.payLen.toNat ∧
     s.payloadBits = [true, false] ++ [false] ++ [] ∧ Coded s.tree [true, false] [0x61] ∧
     ([0x61] : List Sym).length = s.caps.outCap ∧ PathTo s.tree [false] 0x63) :=
  ⟨rfl, ⟨rfl, by decide⟩,
    ⟨rfl, rfl, by decide, rfl, coded_ac, by decide, by decide, .right (.here _ _)⟩,
    ⟨rfl, rfl, by decide, rfl, .cons (p := [true, false]) (.right (.left (.leaf _))) .nil, rfl, .left (.leaf _)⟩⟩

/-- Payloads that differ in the padding and in a surplus byte. -/
theorem witness_DecodeNeverExaminesPadding :
    (∀ i, i < (acState caps16 3 [0x9F]).bitLen.toNat →
      streamBit (Buffer.holding [0x80, 0x55] 7) i = streamBit (acState caps16 3 [0x9F]).pay i) ∧
    exec .decode (acState caps16 3 [0x9F]) = .next (after .decode (acState caps16 3 [0x9F])) := by
  refine ⟨fun i hi => ?_, exec_after _ _⟩
  have : i < 3 := hi
  interval_cases i <;> rfl

/-- PAY and OUT exactly large enough. -/
theorem witness_EncodeThenDecodeGivesTheSource :
    StateInv codedState ∧ codedState.treeValid = true ∧ codedState.source = abc3Syms.map byteOf ∧
    (∀ x ∈ abc3Syms, x ∈ leaves codedState.tree) ∧
    exec .gencodes codedState = .next (after .gencodes codedState) ∧
    (codeLength (after .gencodes codedState).code abc3Syms + 7) / 8 ≤ codedState.caps.payCap ∧
    codedState.srcLen.toNat ≤ codedState.caps.outCap :=
  ⟨inv_of_ok (.inr ⟨rfl, rfl⟩) (by decide +kernel), rfl, codedState_source, by decide, exec_after _ _, by decide +kernel, by decide⟩

/-- A source to compress, with PAY and OUT exactly large enough, and the states after the stages. -/
def plainState (payCap : Nat) : State := sample ⟨16, payCap, 9⟩ (src := abc3)
def stage1 (p : Nat) : State := after .count (plainState p)
def stage2 (p : Nat) : State := after .build (stage1 p)
def stage3 (p : Nat) : State := after .gencodes (stage2 p)
def stage4 (p : Nat) : State := after .encode (stage3 p)
def stage5 (p : Nat) : State := after .serialize (stage4 p)

theorem witness_CompressIsItsFiveStages :
    (plainState 2).err = none ∧
    (exec .count (plainState 2) = .next (stage1 2) ∧ exec .build (stage1 2) = .next (stage2 2) ∧
      exec .gencodes (stage2 2) = .next (stage3 2) ∧ exec .encode (stage3 2) = .next (stage4 2) ∧
      exec .serialize (stage4 2) = .next (stage5 2)) ∧
    ((stage1 2).err = none ∧ (stage2 2).err = none ∧ (stage3 2).err = none ∧ (stage4 2).err = none ∧
      (stage5 2).err = none) :=
  ⟨rfl, ⟨exec_after _ _, exec_after _ _, exec_after _ _, exec_after _ _, exec_after _ _⟩, by decide +kernel⟩

/-- The first four stages from a state. -/
def stages (s : State) : State × State × State × State :=
  let a := after .count s
  let b := after .build a
  let g := after .gencodes b
  (a, b, g, after .encode g)

theorem exec_stages (s : State) :
    exec .count s = .next (stages s).1 ∧ exec .build (stages s).1 = .next (stages s).2.1 ∧
    exec .gencodes (stages s).2.1 = .next (stages s).2.2.1 ∧ exec .encode (stages s).2.2.1 = .next (stages s).2.2.2 :=
  ⟨exec_after _ _, exec_after _ _, exec_after _ _, exec_after _ _⟩

/-- COUNT fails; BUILD fails; ENCODE fails with PAY one byte too small (the stages are those of `exec_stages`).  A failing
GENCODES after a successful BUILD has no witness: R186. -/
theorem witness_CompressReportsItsFirstFailingStage :
    (let s := sample (src := [0x80])
     s.err = none ∧ (stages s).1.err = some .symbolRange) ∧
    (sample.err = none ∧ (stages sample).1.err = none ∧ (stages sample).2.1.err = some .emptyInput) ∧
    (let s := plainState 1
     s.err = none ∧ (stages s).1.err = none ∧ (stages s).2.1.err = none ∧ (stages s).2.2.1.err = none ∧
       (stages s).2.2.2.err = some .capacity) := by
  decide +kernel

theorem witness_CompressCompletes :
    StateInv (plainState 2) ∧ (plainState 2).source = abc3Syms.map byteOf ∧ (∃ x ∈ abc3Syms, ∃ y ∈ abc3Syms, x ≠ y) ∧
    exec .count (plainState 2) = .next (stage1 2) ∧ exec .build (stage1 2) = .next (stage2 2) ∧
    exec .gencodes (stage2 2) = .next (stage3 2) ∧
    (codeLength (stage3 2).code abc3Syms + 7) / 8 ≤ (plainState 2).caps.payCap :=
  ⟨inv_of_ok (.inl rfl) (by decide +kernel), by decide +kernel, ⟨0x61, by decide, 0x62, by decide, by decide⟩,
    exec_after _ _, exec_after _ _, exec_after _ _, by decide +kernel⟩

/-- The empty source; one symbol once; a byte out of range; PAY one byte too small. -/
theorem witness_CompressErrors :
    sample.source = [] ∧ (sample (src := [0x7A])).source = List.replicate (0 + 1) (byteOf 0x7A) ∧
    ((0x80 : Byte) ∈ (sample (src := [0x61, 0x80])).source ∧ 128 ≤ (0x80 : Byte).toNat) ∧
    ((plainState 1).source = abc3Syms.map byteOf ∧ exec .count (plainState 1) = .next (stage1 1) ∧
      exec .build (stage1 1) = .next (stage2 1) ∧ exec .gencodes (stage2 1) = .next (stage3 1) ∧
      (plainState 1).caps.payCap < (codeLength (stage3 1).code abc3Syms + 7) / 8) :=
  ⟨by decide +kernel, by decide +kernel, by decide +kernel, by decide +kernel, exec_after _ _, exec_after _ _,
    exec_after _ _, by decide +kernel⟩

/-- The hypotheses of CompressCompletes in the same state, and OUT exactly large enough. -/
theorem witness_CompressThenDecompressGivesTheSource :
    StateInv (plainState 2) ∧ (plainState 2).source = abc3Syms.map byteOf ∧ (∃ x ∈ abc3Syms, ∃ y ∈ abc3Syms, x ≠ y) ∧
    exec .count (plainState 2) = .next (stage1 2) ∧ exec .build (stage1 2) = .next (stage2 2) ∧
    exec .gencodes (stage2 2) = .next (stage3 2) ∧
    (codeLength (stage3 2).code abc3Syms + 7) / 8 ≤ (plainState 2).caps.payCap ∧
    (plainState 2).srcLen.toNat ≤ (plainState 2).caps.outCap := by
  obtain ⟨h1, h2, h3, h4, h5, h6, h7⟩ := witness_CompressCompletes
  exact ⟨h1, h2, h3, h4, h5, h6, h7, by decide⟩

/-- `(c (a b))` with the fillers 0x81 and 0x80, and OUT filled to its capacity. -/
theorem witness_DecompressCompletes :
    let s := acState ⟨16, 16, 2⟩ 3 [0x9F]
    TokenStream s.tokens treeCAB ∧ treeOk treeCAB = true ∧ (s.bitLen.toNat + 7) / 8 ≤ s.payLen.toNat ∧
    Coded treeCAB s.payloadBits [0x61, 0x63] ∧ 2 ≤ s.caps.outCap ∧ s.caps.wf = true :=
  ⟨.node 0x81 (.leaf 0x63) (.node 0x80 (.leaf 0x61) (.leaf 0x62)), by decide, by decide, coded_ac, by decide, by decide⟩

/-- DESERIALIZE fails; DECODE fails after the tree has parsed. -/
theorem witness_DecompressReportsItsFirstFailingStage :
    (sample.err = none ∧ (after .deserialize sample).err = some .invalidFormat) ∧
    (let s := acState caps16 4 [0x9F]
     s.err = none ∧ (after .deserialize s).err = none ∧ (after .decode (after .deserialize s)).err = some .invalidFormat) := by
  decide +kernel

/-- A container with no padding bit and an empty one; cut by one byte; L1 = 766 (V104). -/
theorem witness_ContainerRoundTrip :
    (tokBA.length ≤ 765 ∧ ([0x00] : List Byte).length = ((8 : Word).toNat + 7) / 8) ∧
    (([] : List Byte).length ≤ 765 ∧ ([] : List Byte).length = ((0 : Word).toNat + 7) / 8) ∧
    25 < (frame ⟨tokBA, 8, [0x00]⟩).length ∧ 765 < (766 : Word).toNat := by decide +kernel

/-! ### Runs (R13) and lines of the notation (R105, R106) -/

/-- The reset state with a host program placed. -/
def placed (ts : List Turn) : State := { State.reset with turns := ts }

/-- GENCODES without a tree: ERR stands at the end, and a hardware reset placed after it is no part of the run. -/
theorem test_run_ends_with_the_last_access :
    Ended (placed [.core, .reset]) = true ∧ goneWrong (placed [.host (.writeCmd 0x03), .core, .reset]) = true := by
  decide +kernel

/-- The same, with CLRERR issued before the end; and a refused access. -/
theorem test_run_gone_wrong :
    goneWrong (placed [.host (.writeCmd 0x03), .core, .host (.writeCmd 0x0E)]) = false ∧
    goneWrong (placed [.host (.writeCmd 0x01), .host (.readReg .srcLen)]) = true := by decide +kernel

/-- The number of reads, ERR and BUSY at the end of a host program. -/
def readsOf (ls : List ProgramLine) : Option (Nat × Option ErrKind × Bool) :=
  (endOf (playProgram ls (sample))).map fun t => (t.seen.length, t.err, t.busy)

/-- BUILDT with each command's own polls; and with a failing COUNT, where one read sees that the BUILD was ignored. -/
theorem test_buildt_polls :
    readsOf [.line (.load .src aaab), .buildt 2 1] = some (5, none, false) ∧
    readsOf [.line (.load .src [0x80]), .buildt 2 1] = some (4, some .symbolRange, false) := by decide +kernel

/-- STOREC with PAY_LEN = 2 and BITLEN = 3 reads TOK_LEN, BITLEN and two bytes. -/
theorem test_storec_reads_the_payload_length :
    readsOf [.line (.load .pay [0x9F, 0x55]), .line (.set .bitLen 3), .storec] = some (4, none, false) := by
  decide +kernel

/-- The merge loop on three equal weights, in any table of counts whose queue is this one. -/
theorem mergesTo_CAB (cnt : Vector Word 128)
    (h : ((presentSymbols cnt).map fun x => (⟨cnt[x].toNat, x.val, .leaf x⟩ : QEntry)) =
      [⟨3, 0x61, .leaf 0x61⟩, ⟨3, 0x62, .leaf 0x62⟩, ⟨3, 0x63, .leaf 0x63⟩]) :
    MergesTo 0 (startQueue cnt) treeCAB := by
  have h2 : MergesTo 1 ((⟨3, 0x63, .leaf 0x63⟩ : QEntry) ::ₘ ⟨6, 128, .node (.leaf 0x61) (.leaf 0x62)⟩ ::ₘ 0) treeCAB := by
    refine .merge ?_ ?_ (.root 2 ⟨9, 129, treeCAB⟩)
    · simp [Precedes]
    · simp
  rw [startQueue, h]
  refine .merge (a := ⟨3, 0x61, .leaf 0x61⟩) (b := ⟨3, 0x62, .leaf 0x62⟩) (rest := {⟨3, 0x63, .leaf 0x63⟩}) ?_ ?_ ?_
  · simp [Precedes]
  · simp [Precedes]
  · rw [← Multiset.cons_zero, Multiset.cons_swap]
    exact h2

/-- The codes of "abc" by `(c (a b))`, three times: 15 bits. -/
def abcBits : List Bool := [true, false, true, true, false]
theorem coded_abc {bits : List Bool} {xs : List Sym} (h : Coded treeCAB bits xs) :
    Coded treeCAB (abcBits ++ bits) (0x61 :: 0x62 :: 0x63 :: xs) :=
  .cons (p := [true, false]) (.right (.left (.leaf _)))
    (.cons (p := [true, true]) (.right (.right (.leaf _))) (.cons (p := [false]) (.left (.leaf _)) h))

/-- PAY exactly large enough for the packed bits, and exactly large enough for nine codes of 127 bits. -/
theorem witness_CompressCompletesOnEverySourceThatFits :
    (StateInv (plainState 2) ∧ (plainState 2).source = abc3Syms.map byteOf ∧ (∃ x ∈ abc3Syms, ∃ y ∈ abc3Syms, x ≠ y) ∧
      (∀ x : Sym, (stage1 2).cnt[x].toNat = abc3Syms.count x) ∧ MergesTo 0 (startQueue (stage1 2).cnt) treeCAB ∧
      Coded treeCAB (abcBits ++ (abcBits ++ (abcBits ++ []))) abc3Syms ∧
      ((abcBits ++ (abcBits ++ (abcBits ++ []))).length + 7) / 8 ≤ (plainState 2).caps.payCap) ∧
    StateInv (plainState 143) ∧ (plainState 143).source = abc3Syms.map byteOf ∧
    (127 * abc3Syms.length + 7) / 8 ≤ (plainState 143).caps.payCap :=
  ⟨⟨witness_CompressCompletes.1, witness_CompressCompletes.2.1, witness_CompressCompletes.2.2.1, by decide +kernel,
      mergesTo_CAB _ (by decide +kernel), coded_abc (coded_abc (coded_abc .nil)), by decide⟩,
    inv_of_ok (.inl rfl) (by decide +kernel), by decide +kernel, by decide⟩

end Sys2Proof.Tests
end

/-! The invariant of spec/10_state.md (R30, R39, R44) and spec/70_reset_and_hazards.md (R236): it holds at reset and
every step keeps it.

The invariant without its clause on PENDING is `DataInv`: every operation on the data keeps it, also inside a command,
where an error may already stand beside a BUSY = 1.  PENDING matters at the two ends of the handshake only: a CMD write
puts an accepted command there, and a completion leaves BUSY = 0. -/

namespace Sys2Proof.Machine

/-! ### The data invariant and the operations on the state -/

/-- `StateInv` but for PENDING. -/
structure DataInv (s : State) : Prop where
  caps : s.caps.wf = true
  memory : Memory.wf s = true
  lengths : ∀ b : Buf, s.lenOf b ≤ s.capOf b
  tree : s.treeValid = true → treeOk s.tree = true
  codes : CodeMatchesTree s

theorem StateInv.data {s : State} (h : StateInv s) : DataInv s :=
  ⟨h.caps, h.memory, h.lengths, h.tree, h.codes⟩

theorem DataInv.stateInv {s : State} (h : DataInv s) (hp : PendingAccepted s) : StateInv s :=
  ⟨h.caps, h.memory, h.lengths, h.tree, h.codes, hp⟩

/-- With BUSY = 0 PENDING is meaningless (R41). -/
theorem pendingAccepted_of_idle {s : State} (hb : s.busy = false) : PendingAccepted s := by
  intro h
  rw [hb] at h
  cases h

theorem DataInv.stateInv_of_idle {s : State} (h : DataInv s) (hb : s.busy = false) : StateInv s :=
  h.stateInv (pendingAccepted_of_idle hb)

/-- The data invariant speaks of no other field than the capacities, the lengths, the buffers, CODE and TREE. -/
theorem DataInv.with_other_fields {s : State} (h : DataInv s) (busy : Bool) (err : Option ErrKind) (bitLen : Word)
    (cnt : Vector Word 128) (pending : Byte) (draws : Nat) (turns : List Turn) (seen : List Answer) :
    DataInv { s with busy, err, bitLen, cnt, pending, draws, turns, seen } :=
  ⟨h.caps, h.memory, h.lengths, h.tree, h.codes⟩

theorem toNat_ofNat64_le {n cap : Nat} (h : n ≤ cap) : (BitVec.ofNat 64 n).toNat ≤ cap := by
  rw [BitVec.toNat_ofNat]
  exact (Nat.mod_le _ _).trans h

theorem DataInv.clearCodes {s : State} (h : DataInv s) : DataInv s.clearCodes :=
  ⟨h.caps, h.memory, h.lengths, h.tree, .inl rfl⟩

/-- GENCODES on a valid tree (R135). -/
theorem DataInv.generated {s : State} (h : DataInv s) (hv : s.treeValid = true) :
    DataInv { s with code := codesOf s.tree } :=
  ⟨h.caps, h.memory, h.lengths, h.tree, .inr ⟨hv, rfl⟩⟩

theorem DataInv.installTree {s : State} {tr : HuffTree} (h : DataInv s) (ht : treeOk tr = true) :
    DataInv (s.installTree tr) :=
  ⟨h.caps, h.memory, h.lengths, fun _ => ht, .inl rfl⟩

theorem DataInv.dropTree {s : State} (h : DataInv s) : DataInv s.dropTree :=
  ⟨h.caps, h.memory, h.lengths, nofun, .inl rfl⟩

theorem DataInv.writeTok {s : State} {bs : List Byte} (h : DataInv s) (hb : bs.length ≤ tokCap) :
    DataInv (s.writeTok bs) where
  caps := h.caps
  memory := Memory.wf_writeTok hb h.memory
  lengths
    | .src => h.lengths .src
    | .tok => toNat_ofNat64_le hb
    | .pay => h.lengths .pay
    | .out => h.lengths .out
  tree := h.tree
  codes := h.codes

theorem DataInv.writePay {s : State} {bs : List Byte} (n : Nat) (h : DataInv s) (hb : bs.length ≤ s.caps.payCap) :
    DataInv (s.writePay bs n) where
  caps := h.caps
  memory := Memory.wf_writePay n hb h.memory
  lengths
    | .src => h.lengths .src
    | .tok => h.lengths .tok
    | .pay => toNat_ofNat64_le hb
    | .out => h.lengths .out
  tree := h.tree
  codes := h.codes

theorem DataInv.writeOut {s : State} {bs : List Byte} (h : DataInv s) (hb : bs.length ≤ s.caps.outCap) :
    DataInv (s.writeOut bs) where
  caps := h.caps
  memory := Memory.wf_writeOut hb h.memory
  lengths
    | .src => h.lengths .src
    | .tok => h.lengths .tok
    | .pay => h.lengths .pay
    | .out => toNat_ofNat64_le hb
  tree := h.tree
  codes := h.codes

/-- A failure rule leaves its destination as a command that wrote no byte would (`Buffer.unspecified` is
`Buffer.holding []`). -/
theorem DataInv.dropTok {s : State} (h : DataInv s) : DataInv s.dropTok :=
  h.writeTok (bs := []) (Nat.zero_le _)

theorem DataInv.dropPay {s : State} (h : DataInv s) : DataInv s.dropPay :=
  h.writePay (bs := []) 0 (Nat.zero_le _)

theorem DataInv.dropOut {s : State} (h : DataInv s) : DataInv s.dropOut :=
  h.writeOut (bs := []) (Nat.zero_le _)

theorem DataInv.resetBlock {s : State} (h : DataInv s) : DataInv s.resetBlock where
  caps := h.caps
  memory := Memory.wf_resetBlock s
  lengths b := by cases b <;> exact Nat.zero_le _
  tree := nofun
  codes := .inl rfl

/-- A legal host write of a data register keeps every length within its bound (R44). -/
theorem DataInv.setReg {s : State} {r : DataReg} {v : Word} {bound : Nat} (h : DataInv s)
    (hr : s.regBound r = some bound) (hv : v.toNat ≤ bound) : DataInv (s.setReg v r) := by
  have hlen : ∀ b, (s.setReg v r).lenOf b ≤ s.capOf b := by
    -- the length written is within `bound`, every other is as it was
    intro b
    have hb := h.lengths b
    cases r <;> cases hr <;> cases b <;> assumption
  cases r <;> exact ⟨h.caps, h.memory, hlen, h.tree, h.codes⟩

theorem DataInv.putByte {s : State} {b : Buf} {i : Nat} (v : Byte) (h : DataInv s) (hi : i < s.capOf b) :
    DataInv (s.putByte i v b) := by
  have hm := Memory.wf_putByte v hi h.memory
  cases b <;> exact ⟨h.caps, hm, h.lengths, h.tree, h.codes⟩

/-! ### What a successful stage computes -/

theorem buildResult_ok {s t : State} (h : buildResult s = .ok t) :
    ∃ tr, buildTree s.cnt = .ok tr ∧ t = s.installTree tr := by
  unfold buildResult at h
  split at h
  · cases h
  · next tr htr => cases h; exact ⟨tr, htr, rfl⟩

theorem gencodesResult_ok {s t : State} (h : gencodesResult s = .ok t) :
    s.treeValid = true ∧ t = { s with code := codesOf s.tree } := by
  unfold gencodesResult at h
  split at h
  · next hv => cases h; exact ⟨hv, rfl⟩
  · cases h

theorem serializeResult_ok {s t : State} (h : serializeResult s = .ok t) :
    s.treeValid = true ∧ t = s.writeTok (ser s.tree) := by
  unfold serializeResult at h
  split at h
  · next hv => cases h; exact ⟨hv, rfl⟩
  · cases h

theorem encodeResult_ok {s t : State} (h : encodeResult s = .ok t) :
    ∃ bits, encodeBits s.code s.caps.payCap s.source 0 = .ok bits ∧ t = s.writePay (packBits bits) bits.length := by
  unfold encodeResult at h
  split at h
  · cases h
  · next bits hbits => cases h; exact ⟨bits, hbits, rfl⟩

theorem deserializeResult_ok {s t : State} (h : deserializeResult s = .ok t) :
    ∃ tr, treeOfTokens s.tokens = some tr ∧ t = s.installTree tr := by
  unfold deserializeResult at h
  split at h
  · cases h
  · next tr htr => cases h; exact ⟨tr, htr, rfl⟩

theorem decodeResult_ok {s t : State} (h : decodeResult s = .ok t) :
    s.treeValid = true ∧ ceil8 s.bitLen.toNat ≤ s.payLen.toNat ∧
      ∃ xs, decodeBits s.tree s.caps.outCap s.payloadBits s.tree true 0 = .ok xs ∧
        t = s.writeOut (xs.map byteOf) := by
  unfold decodeResult at h
  split at h
  · next hv =>
    split at h
    · cases h
    · next hlen =>
      split at h
      · cases h
      · next xs hxs => cases h; exact ⟨hv, Nat.le_of_not_lt hlen, xs, hxs, rfl⟩
  · cases h

/-! ### The tree BUILD makes is valid -/

/-- The leaf symbols of the trees in a queue. -/
def queueLeaves (q : List QEntry) : List Sym := q.flatMap fun e => leaves e.node

theorem queueLeaves_perm {p q : List QEntry} (h : p.Perm q) : (queueLeaves p).Perm (queueLeaves q) :=
  h.flatMap_right _

/-- `extractMin` splits the queue and loses no entry (R127). -/
theorem extractMin_perm (x : QEntry) (xs : List QEntry) :
    ((extractMin x xs).1 :: (extractMin x xs).2).Perm (x :: xs) := by
  induction xs generalizing x with
  | nil => rfl
  | cons y ys ih =>
    unfold extractMin
    split
    · exact (List.Perm.swap _ _ _).trans ((ih y).cons x)
    · exact (List.Perm.swap _ _ _).trans (((ih x).cons y).trans (List.Perm.swap _ _ _))

theorem queueLeaves_mergeEntries (k : Nat) (a b : QEntry) (rest : List QEntry) :
    queueLeaves (mergeEntries k a b :: rest) = queueLeaves (a :: b :: rest) := by
  simp [queueLeaves, mergeEntries, leaves]

/-- The merge loop keeps the leaves: each pass extracts two entries and puts back their merge (R121, R126). -/
theorem leaves_mergeLoop (fuel k : Nat) (x : QEntry) (xs : List QEntry) (hf : xs.length ≤ fuel) :
    (leaves (mergeLoop fuel k x xs)).Perm (queueLeaves (x :: xs)) := by
  induction fuel generalizing k x xs with
  | zero =>
    obtain rfl : xs = [] := List.eq_nil_of_length_eq_zero (Nat.le_zero.1 hf)
    simp [mergeLoop, queueLeaves]
  | succ fuel ih =>
    have hx := extractMin_perm x xs
    unfold mergeLoop
    split
    · next a ha =>
      rw [ha] at hx
      simpa [queueLeaves] using queueLeaves_perm hx
    · next a y ys ha =>
      rw [ha] at hx
      have hy := extractMin_perm y ys
      split
      next b rest hb =>
      rw [hb] at hy
      have hall : (a :: b :: rest).Perm (x :: xs) := (hy.cons a).trans hx
      have hlen : rest.length ≤ fuel := by
        have := hall.length_eq
        simp only [List.length_cons] at this
        omega
      have hmerged := ih (k + 1) (mergeEntries k a b) rest hlen
      rw [queueLeaves_mergeEntries] at hmerged
      exact hmerged.trans (queueLeaves_perm hall)

/-- The entry BUILD queues for a symbol of nonzero weight (R121). -/
def leafEntry (cnt : Vector Word 128) (x : Sym) : QEntry := { w := cnt[x].toNat, seq := x.val, node := .leaf x }

/-- The queue starts with a leaf for every symbol of nonzero weight, ascending (R121, R122). -/
theorem initialQueue_eq_map (cnt : Vector Word 128) :
    initialQueue cnt = (presentSymbols cnt).map (leafEntry cnt) := by
  unfold initialQueue presentSymbols
  induction List.finRange 128 with
  | nil => rfl
  | cons x xs ih =>
    by_cases hx : cnt[x] = 0
    · rw [List.filterMap_cons_none (by exact if_pos hx), ih, List.filter_cons_of_neg (by simpa using hx)]
    · rw [List.filterMap_cons_some (b := leafEntry cnt x) (by exact if_neg hx), ih,
        List.filter_cons_of_pos (by simpa using hx), List.map_cons]

theorem queueLeaves_initialQueue (cnt : Vector Word 128) : queueLeaves (initialQueue cnt) = presentSymbols cnt := by
  simp [initialQueue_eq_map, queueLeaves, List.flatMap_map, leafEntry, leaves]

theorem presentSymbols_nodup (cnt : Vector Word 128) : (presentSymbols cnt).Nodup :=
  (List.nodup_finRange 128).filter _

/-- BUILD succeeds with two symbols or more, and merges their leaves (R121 to R126). -/
theorem buildTree_ok {cnt : Vector Word 128} {tr : HuffTree} (h : buildTree cnt = .ok tr) :
    2 ≤ (presentSymbols cnt).length ∧ (leaves tr).Perm (presentSymbols cnt) := by
  have hlen : (initialQueue cnt).length = (presentSymbols cnt).length := by
    rw [initialQueue_eq_map, List.length_map]
  rw [← hlen, ← queueLeaves_initialQueue]
  unfold buildTree at h
  split at h
  · cases h
  · cases h
  · next x y q hq =>
    split at h
    · cases h
    · cases h
      rw [hq]
      exact ⟨by simp, leaves_mergeLoop _ _ _ _ (Nat.le_succ _)⟩

/-- A leaf has one leaf symbol, so a tree with two is a `Node`. -/
theorem isNode_of_two_le_leaves {t : HuffTree} (h : 2 ≤ (leaves t).length) : isNode t = true := by
  cases t with
  | leaf x => simp [leaves] at h
  | node l r => rfl

/-- The tree BUILD installs is valid (R128). -/
theorem treeOk_of_buildTree {cnt : Vector Word 128} {tr : HuffTree} (h : buildTree cnt = .ok tr) :
    treeOk tr = true := by
  obtain ⟨htwo, hperm⟩ := buildTree_ok h
  rw [← hperm.length_eq] at htwo
  exact (treeOk_iff tr).2 ⟨isNode_of_two_le_leaves htwo, hperm.nodup_iff.2 (presentSymbols_nodup cnt)⟩

/-! ### What the other commands write fits its buffer -/

/-- DESERIALIZE accepts only a valid tree (R154). -/
theorem treeOk_of_treeOfTokens {bs : List Byte} {tr : HuffTree} (h : treeOfTokens bs = some tr) :
    treeOk tr = true := by
  unfold treeOfTokens at h
  split at h
  · split at h
    · next hok => cases h; exact hok
    · cases h
  · cases h

/-- Six bytes for a leaf and the node above it, but for the three of the root that has none (R93, R147). -/
theorem ser_length (t : HuffTree) : (ser t).length + 3 = 6 * (leaves t).length := by
  induction t with
  | leaf x => rfl
  | node l r hl hr => simp only [ser, leaves, List.length_append, List.length_singleton]; omega

/-- The token stream of a valid tree fits TOK: 765 = 6 × 128 − 3. -/
theorem ser_length_le_tokCap {t : HuffTree} (h : treeOk t = true) : (ser t).length ≤ tokCap := by
  obtain ⟨_, hnodup⟩ := (treeOk_iff t).1 h
  have hleaves := length_le_of_nodup _ hnodup
  have hser := ser_length t
  unfold tokCap
  omega

/-- ENCODE checks the capacity at every byte, so what it has emitted always fits PAY (R168). -/
theorem encodeBits_fits {code : Vector CodeEntry 128} {cap : Nat} {bs : List Byte} {n : Nat} {bits : List Bool}
    (hn : ceil8 n ≤ cap) (h : encodeBits code cap bs n = .ok bits) : ceil8 (n + bits.length) ≤ cap := by
  induction bs generalizing n bits with
  | nil => cases h; exact hn
  | cons b bs ih =>
    unfold encodeBits at h
    split at h
    · cases h
    · next e _ =>
      split at h
      · cases h
      · next hfit =>
        split at h
        · cases h
        · next rest hrest =>
          cases h
          rw [List.length_append, entryPath_length, ← Nat.add_assoc]
          exact ih (Nat.le_of_not_lt hfit) hrest

/-- DECODE checks the capacity before every symbol, so what it has emitted always fits OUT (R178). -/
theorem decodeBits_fits {root cur : HuffTree} {cap m : Nat} {bits : List Bool} {atRoot : Bool} {xs : List Sym}
    (hm : m ≤ cap) (h : decodeBits root cap bits cur atRoot m = .ok xs) : m + xs.length ≤ cap := by
  induction bits generalizing cur atRoot m xs with
  | nil =>
    unfold decodeBits at h
    split at h <;> cases h
    exact hm
  | cons bit bits ih =>
    unfold decodeBits at h
    split at h
    · split at h
      · cases h
      · next hfit =>
        split at h
        · cases h
        · next ys hys =>
          cases h
          have := ih (by omega) hys
          simp only [List.length_cons]
          omega
    · exact ih hm h

/-! ### Every stage and every command keeps the data invariant -/

theorem countResult_dataInv {s t : State} (hs : DataInv s) (h : countResult s = .ok t) : DataInv t := by
  rw [countResult_frame h]
  exact hs.with_other_fields ..

theorem buildResult_dataInv {s t : State} (hs : DataInv s) (h : buildResult s = .ok t) : DataInv t := by
  obtain ⟨tr, htr, rfl⟩ := buildResult_ok h
  exact hs.installTree (treeOk_of_buildTree htr)

theorem gencodesResult_dataInv {s t : State} (hs : DataInv s) (h : gencodesResult s = .ok t) : DataInv t := by
  obtain ⟨hv, rfl⟩ := gencodesResult_ok h
  exact hs.generated hv

theorem serializeResult_dataInv {s t : State} (hs : DataInv s) (h : serializeResult s = .ok t) : DataInv t := by
  obtain ⟨hv, rfl⟩ := serializeResult_ok h
  exact hs.writeTok (ser_length_le_tokCap (hs.tree hv))

theorem encodeResult_dataInv {s t : State} (hs : DataInv s) (h : encodeResult s = .ok t) : DataInv t := by
  obtain ⟨bits, hbits, rfl⟩ := encodeResult_ok h
  have hfits := encodeBits_fits (Nat.zero_le _) hbits
  rw [Nat.zero_add, ← packBits_length] at hfits
  exact hs.writePay _ hfits

theorem deserializeResult_dataInv {s t : State} (hs : DataInv s) (h : deserializeResult s = .ok t) : DataInv t := by
  obtain ⟨tr, htr, rfl⟩ := deserializeResult_ok h
  exact hs.installTree (treeOk_of_treeOfTokens htr)

theorem decodeResult_dataInv {s t : State} (hs : DataInv s) (h : decodeResult s = .ok t) : DataInv t := by
  obtain ⟨_, _, xs, hxs, rfl⟩ := decodeResult_ok h
  have hfits := decodeBits_fits (Nat.zero_le _) hxs
  rw [Nat.zero_add, ← List.length_map (f := byteOf)] at hfits
  exact hs.writeOut hfits

theorem compressResult_dataInv {s t : State} (hs : DataInv s) (h : compressResult s = .ok t) : DataInv t := by
  obtain ⟨encoded, h, hserialize⟩ := bind_eq_ok h
  obtain ⟨coded, h, hencode⟩ := bind_eq_ok h
  obtain ⟨built, h, hgencodes⟩ := bind_eq_ok h
  obtain ⟨counted, hcount, hbuild⟩ := bind_eq_ok h
  have hcounted := countResult_dataInv hs hcount
  have hbuilt := buildResult_dataInv hcounted hbuild
  have hcoded := gencodesResult_dataInv hbuilt hgencodes
  exact serializeResult_dataInv (encodeResult_dataInv hcoded hencode) hserialize

theorem decompressResult_dataInv {s t : State} (hs : DataInv s) (h : decompressResult s = .ok t) : DataInv t := by
  obtain ⟨parsed, hdeserialize, hdecode⟩ := bind_eq_ok h
  exact decodeResult_dataInv (deserializeResult_dataInv hs hdeserialize) hdecode

/-- Taking an error keeps the invariant when the failure rule does; a success, when the stage does. -/
theorem conclude_dataInv {fail : State → State} {s : State} {r : Except ErrKind State} (hfail : DataInv (fail s))
    (hok : ∀ t, r = .ok t → DataInv t) : DataInv (conclude fail s r) := by
  obtain ⟨t, hr, hc⟩ | ⟨e, _, hc⟩ := conclude_cases fail s r
  · rw [hc]; exact hok t hr
  · rw [hc]; exact hfail.with_other_fields ..

theorem DataInv.zeroCnt {s : State} (h : DataInv s) : DataInv s.zeroCnt := h.with_other_fields ..

theorem exec_dataInv {i : Instr} {s t : State} (hs : DataInv s) (h : exec i s = .next t) : DataInv t := by
  cases i <;> cases h
  case count => exact conclude_dataInv hs.zeroCnt fun _ => countResult_dataInv hs
  case build => exact conclude_dataInv hs.dropTree fun _ => buildResult_dataInv hs
  case gencodes => exact conclude_dataInv hs.clearCodes fun _ => gencodesResult_dataInv hs
  case serialize => exact conclude_dataInv hs.dropTok fun _ => serializeResult_dataInv hs
  case encode => exact conclude_dataInv hs.dropPay fun _ => encodeResult_dataInv hs
  case deserialize => exact conclude_dataInv hs.dropTree fun _ => deserializeResult_dataInv hs
  case decode => exact conclude_dataInv hs.dropOut fun _ => decodeResult_dataInv hs
  case compress =>
    exact conclude_dataInv hs.zeroCnt.dropTree.dropPay.dropTok fun _ => compressResult_dataInv hs
  case decompress => exact conclude_dataInv hs.dropTree.dropOut fun _ => decompressResult_dataInv hs
  case clrerr => exact hs.with_other_fields ..
  case srst => exact hs.resetBlock

/-! ### Host accesses -/

/-- What a CMD write does with BUSY = 0: the command is accepted, the write is ignored, or the opcode is illegal
(R211). -/
theorem writeCmd_cases (op : Byte) (s : State) :
    (∃ i, decode op = .command i ∧ (s.err = none ∨ runsOnError i = true) ∧ writeCmd op s = s.accept op) ∨
    writeCmd op s = s ∨
    (s.err = none ∧ writeCmd op s = s.setErr .illegalCommand) := by
  unfold writeCmd
  split
  · next i hi =>
    split
    · next hrun =>
      rw [Bool.or_eq_true, Option.isNone_iff_eq_none] at hrun
      exact .inl ⟨i, hi, hrun.symm, rfl⟩
    · exact .inr (.inl rfl)
  · split
    · next herr => exact .inr (.inr ⟨Option.isNone_iff_eq_none.1 herr, rfl⟩)
    · exact .inr (.inl rfl)

theorem writeReg_next {r : DataReg} {v : Word} {s t : State} (h : writeReg r v s = .next t) :
    ∃ bound, s.regBound r = some bound ∧ v.toNat ≤ bound ∧ t = s.setReg v r := by
  unfold writeReg at h
  split at h
  · cases h
  · next bound hr =>
    split at h
    · next hv => cases h; exact ⟨bound, hr, hv, rfl⟩
    · cases h

theorem readByte_next {b : Buf} {i : Nat} {s t : State} (h : readByte b i s = .next t) :
    ∃ v d, t = { s.answer v with draws := d } := by
  unfold readByte at h
  split at h
  · cases h
  · split at h
    · cases h; exact ⟨_, _, rfl⟩
    · cases h; exact ⟨_, s.draws, rfl⟩

theorem writeByte_next {b : Buf} {i : Nat} {v : Byte} {s t : State} (h : writeByte b i v s = .next t) :
    b ≠ .out ∧ i < s.capOf b ∧ t = s.putByte i v b := by
  unfold writeByte at h
  split at h
  · cases h
  · next hb =>
    split at h
    · cases h
    · next hi => cases h; exact ⟨hb, Nat.lt_of_not_le hi, rfl⟩

/-- What a host access with BUSY = 0 does when it is not refused: a CMD write, a read, or a write of a register, a
count or a byte (R43). -/
theorem idleAccess_next {a : Access} {s t : State} (h : idleAccess a s = .next t) :
    (∃ op, a = .writeCmd op ∧ t = writeCmd op s) ∨
    (∃ v d, t = { s.answer v with draws := d }) ∨
    (∃ r v bound, a = .writeReg r v ∧ s.regBound r = some bound ∧ v.toNat ≤ bound ∧ t = s.setReg v r) ∨
    (∃ x w, a = .writeCnt x w ∧ t = { s with cnt := s.cnt.set x w }) ∨
    (∃ b i v, a = .writeByte b i v ∧ b ≠ .out ∧ i < s.capOf b ∧ t = s.putByte i v b) := by
  cases a <;> simp only [idleAccess, reduceCtorEq] at h
  case writeCmd op => cases h; exact .inl ⟨op, rfl, rfl⟩
  case writeReg r v =>
    obtain ⟨bound, hr, hv, rfl⟩ := writeReg_next h
    exact .inr (.inr (.inl ⟨r, v, bound, rfl, hr, hv, rfl⟩))
  case writeCnt x w => cases h; exact .inr (.inr (.inr (.inl ⟨x, w, rfl, rfl⟩)))
  case readByte b i => exact .inr (.inl (readByte_next h))
  case writeByte b i v =>
    obtain ⟨hb, hi, rfl⟩ := writeByte_next h
    exact .inr (.inr (.inr (.inr ⟨b, i, v, rfl, hb, hi, rfl⟩)))
  all_goals cases h; exact .inr (.inl ⟨_, s.draws, rfl⟩)

@[simp] theorem State.setReg_busy (s : State) (v : Word) (r : DataReg) : (s.setReg v r).busy = s.busy := by
  cases r <;> rfl

@[simp] theorem State.putByte_busy (s : State) (i : Nat) (v : Byte) (b : Buf) : (s.putByte i v b).busy = s.busy := by
  cases b <;> rfl

/-- A CMD write puts only an accepted command into PENDING (R236). -/
theorem writeCmd_stateInv {op : Byte} {s : State} (hs : StateInv s) (hb : s.busy = false) :
    StateInv (writeCmd op s) := by
  obtain ⟨i, hi, hrun, hw⟩ | hw | ⟨_, hw⟩ := writeCmd_cases op s
  · rw [hw]
    exact DataInv.stateInv (hs.data.with_other_fields ..) fun _ => ⟨i, hi, hrun⟩
  · rw [hw]
    exact hs
  · rw [hw]
    exact DataInv.stateInv_of_idle (hs.data.with_other_fields ..) hb

theorem idleAccess_stateInv {a : Access} {s t : State} (hs : StateInv s) (hb : s.busy = false)
    (h : idleAccess a s = .next t) : StateInv t := by
  obtain ⟨op, _, rfl⟩ | ⟨v, d, rfl⟩ | ⟨r, v, bound, _, hr, hv, rfl⟩ | ⟨x, w, _, rfl⟩ | ⟨b, i, v, _, _, hi, rfl⟩ :=
    idleAccess_next h
  · exact writeCmd_stateInv hs hb
  · exact DataInv.stateInv_of_idle (hs.data.with_other_fields ..) hb
  · exact (hs.data.setReg hr hv).stateInv_of_idle (by simpa using hb)
  · exact DataInv.stateInv_of_idle (hs.data.with_other_fields ..) hb
  · exact (hs.data.putByte v hi).stateInv_of_idle (by simpa using hb)

theorem hostAccess_stateInv {a : Access} {s t : State} (hs : StateInv s) (h : hostAccess a s = .next t) :
    StateInv t := by
  unfold hostAccess at h
  split at h
  · obtain ⟨_, rfl⟩ := busyAccess_next h
    exact DataInv.stateInv (hs.data.with_other_fields ..) hs.pending
  · next hb => exact idleAccess_stateInv hs (Bool.eq_false_of_not_eq_true hb) h

/-! ### The step -/

theorem coreTurn_stateInv {s t : State} (hs : StateInv s) (h : coreTurn s = .next t) : StateInv t := by
  obtain ⟨_, rfl⟩ | ⟨_, i, u, _, hexec, rfl⟩ := coreTurn_next h
  · exact hs
  · have hu := exec_dataInv hs.data hexec
    exact DataInv.stateInv_of_idle (hu.with_other_fields ..) rfl

/-- Taking a turn from the list touches nothing the invariant speaks of. -/
theorem StateInv.with_turns {s : State} (h : StateInv s) (ts : List Turn) : StateInv { s with turns := ts } :=
  DataInv.stateInv (h.data.with_other_fields ..) h.pending

/-- Settles O3, by what a step can do: a core turn ends in a command that keeps the data invariant and in BUSY = 0, a
reset restores the block, and a host access puts only accepted commands into PENDING. -/
theorem stepKeepsTheInvariant : Obligations.StepKeepsTheInvariant := by
  intro s t hs h
  obtain ⟨_, h⟩ | ⟨ts, _, h⟩ | ⟨ts, _, rfl⟩ | ⟨a, ts, _, h⟩ := step_next h
  · exact coreTurn_stateInv hs h
  · exact coreTurn_stateInv (hs.with_turns ts) h
  · exact (hs.with_turns ts).data.resetBlock.stateInv_of_idle rfl
  · exact hostAccess_stateInv (hs.with_turns ts) h

/-- Settles O2: at reset every length is 0, no buffer lists a byte, no tree is valid, CODE is absent and BUSY = 0. -/
theorem resetSatisfiesTheInvariant : Obligations.ResetSatisfiesTheInvariant := by
  intro caps turns hcaps
  have hlengths : ∀ b, State.lenOf { State.reset with caps, turns } b = 0 := by
    intro b
    cases b <;> rfl
  exact DataInv.stateInv_of_idle ⟨hcaps, rfl, fun b => (hlengths b).le.trans (Nat.zero_le _), nofun, .inl rfl⟩ rfl

end Sys2Proof.Machine

/-! The statements about the state (spec/10_state.md): what commands read and write of it, what every run keeps, what
host accesses and the two resets do, and that COMPRESS completes on every source that fits. -/

namespace Sys2Proof.Machine

/-! ### GENCODES and SERIALIZE with and without a tree (R139, R146) -/

theorem gencodesResult_of_valid {s : State} (h : s.treeValid = true) :
    gencodesResult s = .ok { s with code := codesOf s.tree } := if_pos h

theorem gencodesResult_of_invalid {s : State} (h : s.treeValid = false) : gencodesResult s = .error .sequence :=
  if_neg (by simp [h])

theorem serializeResult_of_valid {s : State} (h : s.treeValid = true) :
    serializeResult s = .ok (s.writeTok (ser s.tree)) := if_pos h

theorem serializeResult_of_invalid {s : State} (h : s.treeValid = false) : serializeResult s = .error .sequence :=
  if_neg (by simp [h])

/-! ### Agreeing states and the operations on the state

Every operation a command is made of takes agreeing states to agreeing states: what it computes is read where they
agree, and what it writes anew is drawn with the same draw number. -/

theorem Buffer.bytes_congr {b c : Buffer} {n : Nat} (h : ∀ i, i < n → b.get i = c.get i) : b.bytes n = c.bytes n :=
  List.map_congr_left fun i hi => h i (List.mem_range.1 hi)

section
variable {s t : State}

/-- Every length register is a data register, so agreeing states have the same lengths. -/
theorem Agree.lenOf_eq (h : Agree s t) (b : Buf) : s.lenOf b = t.lenOf b := by
  cases b
  · exact congrArg BitVec.toNat (h.regs .srcLen)
  · exact congrArg BitVec.toNat (h.regs .tokLen)
  · exact congrArg BitVec.toNat (h.regs .payLen)
  · exact congrArg BitVec.toNat (h.regs .outLen)

/-- The meaningful bytes of a buffer are the same. -/
theorem Agree.meaningful_eq (h : Agree s t) (b : Buf) :
    (s.bufOf b).bytes (s.lenOf b) = (t.bufOf b).bytes (t.lenOf b) := by
  rw [← h.lenOf_eq b]
  exact Buffer.bytes_congr (h.bytes b)

theorem Agree.source_eq (h : Agree s t) : s.source = t.source := h.meaningful_eq .src

theorem Agree.tokens_eq (h : Agree s t) : s.tokens = t.tokens := h.meaningful_eq .tok

/-- The payload bits are the same when PAY_LEN covers them, as DECODE asks (R176). -/
theorem Agree.payloadBits_eq (h : Agree s t) (hlen : ceil8 s.bitLen.toNat ≤ s.payLen.toNat) :
    s.payloadBits = t.payloadBits := by
  have hbitLen : s.bitLen = t.bitLen := h.regs .bitLen
  unfold State.payloadBits
  rw [← hbitLen]
  refine List.map_congr_left fun i hi => ?_
  have hbyte : i / 8 < s.payLen.toNat := by
    have := List.mem_range.1 hi
    unfold ceil8 at hlen
    omega
  exact congrArg (fun v : Byte => v.getLsbD (7 - i % 8)) (h.bytes .pay _ hbyte)

theorem Agree.setErr (h : Agree s t) (e : ErrKind) : Agree (s.setErr e) (t.setErr e) :=
  ⟨h.caps, h.treeValid, rfl, h.regs, h.cnt, h.code, h.draws, h.bytes, h.tree⟩

theorem Agree.clearErr (h : Agree s t) : Agree s.clearErr t.clearErr :=
  ⟨h.caps, h.treeValid, rfl, h.regs, h.cnt, h.code, h.draws, h.bytes, h.tree⟩

theorem Agree.withCnt (h : Agree s t) (cnt : Vector Word 128) : Agree { s with cnt } { t with cnt } :=
  ⟨h.caps, h.treeValid, h.err, h.regs, rfl, h.code, h.draws, h.bytes, h.tree⟩

theorem Agree.withCode (h : Agree s t) (code : Vector CodeEntry 128) : Agree { s with code } { t with code } :=
  ⟨h.caps, h.treeValid, h.err, h.regs, h.cnt, rfl, h.draws, h.bytes, h.tree⟩

theorem Agree.installTree (h : Agree s t) (tr : HuffTree) : Agree (s.installTree tr) (t.installTree tr) :=
  ⟨h.caps, rfl, h.err, h.regs, h.cnt, rfl, h.draws, h.bytes, fun _ => rfl⟩

theorem Agree.dropTree (h : Agree s t) : Agree s.dropTree t.dropTree :=
  ⟨h.caps, rfl, h.err, h.regs, h.cnt, rfl, congrArg (· + 1) h.draws, h.bytes, nofun⟩

theorem Agree.writeTok (h : Agree s t) (bs : List Byte) : Agree (s.writeTok bs) (t.writeTok bs) where
  __ := h
  regs
    | .srcLen => h.regs .srcLen
    | .tokLen => rfl
    | .payLen => h.regs .payLen
    | .bitLen => h.regs .bitLen
    | .outLen => h.regs .outLen
  draws := congrArg (· + 1) h.draws
  bytes
    | .src => h.bytes .src
    | .tok => fun i _ => congrArg (fun d => (Buffer.holding bs d).get i) h.draws
    | .pay => h.bytes .pay
    | .out => h.bytes .out

theorem Agree.writePay (h : Agree s t) (bs : List Byte) (n : Nat) : Agree (s.writePay bs n) (t.writePay bs n) where
  __ := h
  regs
    | .srcLen => h.regs .srcLen
    | .tokLen => h.regs .tokLen
    | .payLen => rfl
    | .bitLen => rfl
    | .outLen => h.regs .outLen
  draws := congrArg (· + 1) h.draws
  bytes
    | .src => h.bytes .src
    | .tok => h.bytes .tok
    | .pay => fun i _ => congrArg (fun d => (Buffer.holding bs d).get i) h.draws
    | .out => h.bytes .out

theorem Agree.writeOut (h : Agree s t) (bs : List Byte) : Agree (s.writeOut bs) (t.writeOut bs) where
  __ := h
  regs
    | .srcLen => h.regs .srcLen
    | .tokLen => h.regs .tokLen
    | .payLen => h.regs .payLen
    | .bitLen => h.regs .bitLen
    | .outLen => rfl
  draws := congrArg (· + 1) h.draws
  bytes
    | .src => h.bytes .src
    | .tok => h.bytes .tok
    | .pay => h.bytes .pay
    | .out => fun i _ => congrArg (fun d => (Buffer.holding bs d).get i) h.draws

/-- A failure rule leaves its destination as a command that wrote no byte would. -/
theorem Agree.dropTok (h : Agree s t) : Agree s.dropTok t.dropTok := h.writeTok []

theorem Agree.dropPay (h : Agree s t) : Agree s.dropPay t.dropPay := h.writePay [] 0

theorem Agree.dropOut (h : Agree s t) : Agree s.dropOut t.dropOut := h.writeOut []

/-- After a reset every length is 0 and no tree is valid. -/
theorem Agree.resetBlock (h : Agree s t) : Agree s.resetBlock t.resetBlock where
  caps := h.caps
  treeValid := rfl
  err := rfl
  regs r := by cases r <;> rfl
  cnt := rfl
  code := rfl
  draws := congrArg (· + 6) h.draws
  bytes b i hi := by
    have hlen : s.resetBlock.lenOf b = 0 := by cases b <;> rfl
    omega
  tree := nofun

end

/-! ### Agreeing results -/

/-- Two stages end alike: in agreeing states, or in one error. -/
inductive ResultsAgree : Except ErrKind State → Except ErrKind State → Prop
  | ok {s t : State} (h : Agree s t) : ResultsAgree (.ok s) (.ok t)
  | error (e : ErrKind) : ResultsAgree (.error e) (.error e)

theorem ResultsAgree.bind {r q : Except ErrKind State} {f : State → Except ErrKind State} (h : ResultsAgree r q)
    (hf : ∀ {s t : State}, Agree s t → ResultsAgree (f s) (f t)) : ResultsAgree (r >>= f) (q >>= f) := by
  cases h with
  | ok h => exact hf h
  | error e => exact .error e

theorem ResultsAgree.conclude {r q : Except ErrKind State} {fail : State → State} {s t : State}
    (h : ResultsAgree r q) (hfail : Agree (fail s) (fail t)) : Agree (conclude fail s r) (conclude fail t q) := by
  cases h with
  | ok h => exact h
  | error e => exact hfail.setErr e

section
variable {s t : State}

theorem Agree.countResult (h : Agree s t) : ResultsAgree (countResult s) (countResult t) := by
  unfold Machine.countResult
  rw [← h.source_eq]
  cases tally s.source zeroCounts with
  | none => exact .error _
  | some cnt => exact .ok (h.withCnt cnt)

theorem Agree.buildResult (h : Agree s t) : ResultsAgree (buildResult s) (buildResult t) := by
  unfold Machine.buildResult
  rw [← h.cnt]
  cases buildTree s.cnt with
  | error e => exact .error e
  | ok tr => exact .ok (h.installTree tr)

theorem Agree.gencodesResult (h : Agree s t) : ResultsAgree (gencodesResult s) (gencodesResult t) := by
  cases hv : s.treeValid with
  | true =>
    have hcode : codesOf s.tree = codesOf t.tree := congrArg codesOf (h.tree hv)
    rw [gencodesResult_of_valid hv, gencodesResult_of_valid (h.treeValid ▸ hv), hcode]
    exact .ok (h.withCode _)
  | false =>
    rw [gencodesResult_of_invalid hv, gencodesResult_of_invalid (h.treeValid ▸ hv)]
    exact .error _

theorem Agree.serializeResult (h : Agree s t) : ResultsAgree (serializeResult s) (serializeResult t) := by
  cases hv : s.treeValid with
  | true =>
    rw [serializeResult_of_valid hv, serializeResult_of_valid (h.treeValid ▸ hv), ← h.tree hv]
    exact .ok (h.writeTok _)
  | false =>
    rw [serializeResult_of_invalid hv, serializeResult_of_invalid (h.treeValid ▸ hv)]
    exact .error _

theorem Agree.encodeResult (h : Agree s t) : ResultsAgree (encodeResult s) (encodeResult t) := by
  unfold Machine.encodeResult
  rw [← h.code, ← h.caps, ← h.source_eq]
  cases encodeBits s.code s.caps.payCap s.source 0 with
  | error e => exact .error e
  | ok bits => exact .ok (h.writePay _ _)

theorem Agree.deserializeResult (h : Agree s t) : ResultsAgree (deserializeResult s) (deserializeResult t) := by
  unfold Machine.deserializeResult
  rw [← h.tokens_eq]
  cases treeOfTokens s.tokens with
  | none => exact .error _
  | some tr => exact .ok (h.installTree tr)

theorem Agree.decodeResult (h : Agree s t) : ResultsAgree (decodeResult s) (decodeResult t) := by
  have hbitLen : s.bitLen = t.bitLen := h.regs .bitLen
  have hpayLen : s.payLen = t.payLen := h.regs .payLen
  unfold Machine.decodeResult
  rw [← h.treeValid, ← hbitLen, ← hpayLen]
  split
  · next hv =>
    split
    · exact .error _
    · next hlen =>
      rw [← h.tree hv, ← h.caps, ← h.payloadBits_eq (Nat.le_of_not_lt hlen)]
      cases decodeBits s.tree s.caps.outCap s.payloadBits s.tree true 0 with
      | error e => exact .error e
      | ok xs => exact .ok (h.writeOut _)
  · exact .error _

theorem Agree.compressResult (h : Agree s t) : ResultsAgree (compressResult s) (compressResult t) :=
  h.countResult.bind Agree.buildResult |>.bind Agree.gencodesResult |>.bind Agree.encodeResult
    |>.bind Agree.serializeResult

theorem Agree.decompressResult (h : Agree s t) : ResultsAgree (decompressResult s) (decompressResult t) :=
  h.deserializeResult.bind Agree.decodeResult

end

/-- Settles O10: every stage reads where the two states agree, and its success and its failure rule write alike. -/
theorem commandsReadOnlyMeaningfulState : Obligations.CommandsReadOnlyMeaningfulState := by
  intro i s t s' t' h hs ht
  cases i <;> cases hs <;> cases ht
  case count => exact h.countResult.conclude (h.withCnt _)
  case build => exact h.buildResult.conclude h.dropTree
  case gencodes => exact h.gencodesResult.conclude (h.withCode _)
  case serialize => exact h.serializeResult.conclude h.dropTok
  case encode => exact h.encodeResult.conclude h.dropPay
  case deserialize => exact h.deserializeResult.conclude h.dropTree
  case decode => exact h.decodeResult.conclude h.dropOut
  case compress => exact h.compressResult.conclude (h.withCnt _).dropTree.dropPay.dropTok
  case decompress => exact h.decompressResult.conclude h.dropTree.dropOut
  case clrerr => exact h.clearErr
  case srst => exact h.resetBlock

/-! ### What each command leaves alone (R60), on success and on failure -/

/-- What a command answers: what its stage computed, or its failure rule with the error recorded. -/
theorem conclude_next {fail : State → State} {s t : State} {r : Except ErrKind State}
    (h : (.next (conclude fail s r) : Host.Outcome State Fault Refusal) = .next t) :
    r = .ok t ∨ ∃ e, r = .error e ∧ t = (fail s).setErr e := by
  cases h
  obtain ⟨t, hr, hc⟩ | ⟨e, hr, hc⟩ := conclude_cases fail s r
  · exact .inl (hc ▸ hr)
  · exact .inr ⟨e, hr, hc⟩

theorem compressResult_frame {s t : State} (h : compressResult s = .ok t) :
    t = { s with
          cnt := t.cnt, code := t.code, tree := t.tree, treeValid := t.treeValid, tok := t.tok, tokLen := t.tokLen
          pay := t.pay, payLen := t.payLen, bitLen := t.bitLen, draws := t.draws } := by
  obtain ⟨encoded, h, hserialize⟩ := bind_eq_ok h
  obtain ⟨coded, h, hencode⟩ := bind_eq_ok h
  obtain ⟨built, h, hgencodes⟩ := bind_eq_ok h
  obtain ⟨counted, hcount, hbuild⟩ := bind_eq_ok h
  rw [serializeResult_frame hserialize, encodeResult_frame hencode, gencodesResult_frame hgencodes,
    buildResult_frame hbuild, countResult_frame hcount]

theorem decompressResult_frame {s t : State} (h : decompressResult s = .ok t) :
    t = { s with
          code := t.code, tree := t.tree, treeValid := t.treeValid, out := t.out, outLen := t.outLen
          draws := t.draws } := by
  obtain ⟨parsed, hdeserialize, hdecode⟩ := bind_eq_ok h
  rw [decodeResult_frame hdecode, deserializeResult_frame hdeserialize]

section
variable {s t : State}

theorem exec_count_frame (h : exec .count s = .next t) : t = { s with cnt := t.cnt, err := t.err } := by
  obtain hr | ⟨e, _, rfl⟩ := conclude_next h
  · rw [countResult_frame hr]
  · rfl

theorem exec_build_frame (h : exec .build s = .next t) :
    t = { s with
          code := t.code, tree := t.tree, treeValid := t.treeValid, err := t.err, draws := t.draws } := by
  obtain hr | ⟨e, _, rfl⟩ := conclude_next h
  · rw [buildResult_frame hr]
  · rfl

theorem exec_gencodes_frame (h : exec .gencodes s = .next t) : t = { s with code := t.code, err := t.err } := by
  obtain hr | ⟨e, _, rfl⟩ := conclude_next h
  · rw [gencodesResult_frame hr]
  · rfl

theorem exec_serialize_frame (h : exec .serialize s = .next t) :
    t = { s with tok := t.tok, tokLen := t.tokLen, err := t.err, draws := t.draws } := by
  obtain hr | ⟨e, _, rfl⟩ := conclude_next h
  · rw [serializeResult_frame hr]
  · rfl

theorem exec_encode_frame (h : exec .encode s = .next t) :
    t = { s with pay := t.pay, payLen := t.payLen, bitLen := t.bitLen, err := t.err, draws := t.draws } := by
  obtain hr | ⟨e, _, rfl⟩ := conclude_next h
  · rw [encodeResult_frame hr]
  · rfl

theorem exec_deserialize_frame (h : exec .deserialize s = .next t) :
    t = { s with
          code := t.code, tree := t.tree, treeValid := t.treeValid, err := t.err, draws := t.draws } := by
  obtain hr | ⟨e, _, rfl⟩ := conclude_next h
  · rw [deserializeResult_frame hr]
  · rfl

theorem exec_decode_frame (h : exec .decode s = .next t) :
    t = { s with out := t.out, outLen := t.outLen, err := t.err, draws := t.draws } := by
  obtain hr | ⟨e, _, rfl⟩ := conclude_next h
  · rw [decodeResult_frame hr]
  · rfl

theorem exec_compress_frame (h : exec .compress s = .next t) :
    t = { s with
          cnt := t.cnt, code := t.code, tree := t.tree, treeValid := t.treeValid, tok := t.tok, tokLen := t.tokLen
          pay := t.pay, payLen := t.payLen, bitLen := t.bitLen, err := t.err, draws := t.draws } := by
  obtain hr | ⟨e, _, rfl⟩ := conclude_next h
  · rw [compressResult_frame hr]
  · rfl

theorem exec_decompress_frame (h : exec .decompress s = .next t) :
    t = { s with
          code := t.code, tree := t.tree, treeValid := t.treeValid, out := t.out, outLen := t.outLen
          err := t.err, draws := t.draws } := by
  obtain hr | ⟨e, _, rfl⟩ := conclude_next h
  · rw [decompressResult_frame hr]
  · rfl

theorem exec_clrerr_frame (h : exec .clrerr s = .next t) : t = { s with err := t.err } := by
  cases h
  rfl

end

/-- Settles O9: each command changes the items of its frame alone, and those are its own in R60's column. -/
theorem commandsWriteOnlyTheirOwnSpaces : Obligations.CommandsWriteOnlyTheirOwnSpaces := by
  intro i s t hi h
  cases i
  case count => rw [exec_count_frame h]; simp
  case build => rw [exec_build_frame h]; simp
  case gencodes => rw [exec_gencodes_frame h]; simp
  case serialize => rw [exec_serialize_frame h]; simp
  case encode => rw [exec_encode_frame h]; simp
  case deserialize => rw [exec_deserialize_frame h]; simp
  case decode => rw [exec_decode_frame h]; simp
  case compress => rw [exec_compress_frame h]; simp
  case decompress => rw [exec_decompress_frame h]; simp
  case clrerr => rw [exec_clrerr_frame h]; simp
  case srst => exact absurd rfl hi

/-! ### A valid tree is replaced, never changed in place (R40) -/

/-- A command keeps the tree unless it is one of the five that replace it. -/
theorem exec_keeps_tree {i : Instr} {s t : State} (h : exec i s = .next t)
    (hi : i ∉ [Instr.build, .deserialize, .compress, .decompress, .srst]) :
    t.treeValid = s.treeValid ∧ t.tree = s.tree := by
  have hsrst : i ≠ .srst := by rintro rfl; simp at hi
  have hfour : i ∉ [Instr.build, .deserialize, .compress, .decompress] := fun hmem =>
    hi (List.mem_append_left [Instr.srst] hmem)
  obtain ⟨_, _, _, htree, _⟩ := commandsWriteOnlyTheirOwnSpaces i s t hsrst h
  exact (htree hfour).symm

theorem writeCmd_keeps_tree (op : Byte) (s : State) :
    (writeCmd op s).treeValid = s.treeValid ∧ (writeCmd op s).tree = s.tree := by
  obtain ⟨_, _, _, hw⟩ | hw | ⟨_, hw⟩ := writeCmd_cases op s <;> rw [hw] <;> exact ⟨rfl, rfl⟩

/-- No host access writes TREE (R43). -/
theorem hostAccess_keeps_tree {a : Access} {s t : State} (h : hostAccess a s = .next t) :
    t.treeValid = s.treeValid ∧ t.tree = s.tree := by
  unfold hostAccess at h
  split at h
  · obtain ⟨_, rfl⟩ := busyAccess_next h
    exact ⟨rfl, rfl⟩
  · obtain ⟨op, _, rfl⟩ | ⟨v, d, rfl⟩ | ⟨r, v, _, _, _, _, rfl⟩ | ⟨x, w, _, rfl⟩ | ⟨b, i, v, _, _, _, rfl⟩ :=
      idleAccess_next h
    · exact writeCmd_keeps_tree op s
    · exact ⟨rfl, rfl⟩
    · cases r <;> exact ⟨rfl, rfl⟩
    · exact ⟨rfl, rfl⟩
    · cases b <;> exact ⟨rfl, rfl⟩

/-- The core's turn keeps the tree unless it completes one of the five commands that replace it. -/
theorem coreTurn_keeps_tree {s t : State} (h : coreTurn s = .next t) :
    (t.treeValid = s.treeValid ∧ t.tree = s.tree) ∨
    (s.busy = true ∧ ∃ i, decode s.pending = .command i ∧
      i ∈ [Instr.build, .deserialize, .compress, .decompress, .srst]) := by
  obtain ⟨_, rfl⟩ | ⟨hb, i, u, hd, hexec, rfl⟩ := coreTurn_next h
  · exact .inl ⟨rfl, rfl⟩
  · by_cases hi : i ∈ [Instr.build, .deserialize, .compress, .decompress, .srst]
    · exact .inr ⟨hb, i, hd, hi⟩
    · exact .inl (exec_keeps_tree (t := u) hexec hi)

/-- Settles O8, by what a step can do: a host access writes no tree, and a completion replaces it only by one of the
five commands. -/
theorem onlyFiveCommandsReplaceAValidTree : Obligations.OnlyFiveCommandsReplaceAValidTree := by
  intro s t hv h
  have kept : t.treeValid = s.treeValid ∧ t.tree = s.tree → t.treeValid = true ∧ t.tree = s.tree :=
    And.imp_left fun hkept => hkept.trans hv
  obtain ⟨hts, h⟩ | ⟨ts, hts, h⟩ | ⟨ts, hts, _⟩ | ⟨a, ts, _, h⟩ := step_next h
  · exact (coreTurn_keeps_tree h).imp kept fun ⟨hb, hi⟩ => .inr ⟨hb, .inl hts, hi⟩
  · exact (coreTurn_keeps_tree h).imp kept fun ⟨hb, hi⟩ => .inr ⟨hb, .inr ⟨ts, hts⟩, hi⟩
  · exact .inr (.inl ⟨ts, hts⟩)
  · exact .inl (kept (hostAccess_keeps_tree (s := { s with turns := ts }) h))

/-! ### Every state of every run -/

/-- A longer run answers a next state through its first step. -/
theorem run_succ_next {M : Host.Core} {n : Nat} {s t : M.State} (h : M.run (n + 1) s = .next t) :
    ∃ u, M.step s = .next u ∧ M.run n u = .next t := by
  unfold Host.Core.run at h
  split at h
  · next u hu => exact ⟨u, hu, h⟩
  · cases h
  · cases h

/-- What a state satisfies and every step keeps is true after every run. -/
theorem run_keeps {P : State → Prop} (hstep : ∀ s t : State, P s → step s = .next t → P t) {n : Nat} {s t : State}
    (hs : P s) (h : Sys2Proof.core.run n s = .next t) : P t := by
  induction n generalizing s with
  | zero => cases h; exact hs
  | succ n ih =>
    obtain ⟨u, hu, h⟩ := run_succ_next h
    exact ih (hstep s u hs hu) h

/-- The invariant is true of every state of every run from reset. -/
theorem stateInv_of_run {caps : Config.Caps} {turns : List Turn} {n : Nat} {t : State} (hcaps : caps.wf = true)
    (h : Sys2Proof.core.run n ({ State.reset with caps := caps, turns := turns } : State) = .next t) : StateInv t :=
  run_keeps stepKeepsTheInvariant (resetSatisfiesTheInvariant caps turns hcaps) h

theorem pathTo_length_le_height {t : HuffTree} {p : List Bool} {x : Sym} (h : PathTo t p x) :
    p.length ≤ height t := by
  induction h with
  | leaf x => exact Nat.zero_le _
  | left _ ih => exact Nat.succ_le_succ (ih.trans (Nat.le_max_left _ _))
  | right _ ih => exact Nat.succ_le_succ (ih.trans (Nat.le_max_right _ _))

/-- A tree of distinct symbols has at most 128 leaves, so it is at most 127 high (R39). -/
theorem height_le_127 {t : HuffTree} (h : treeOk t = true) : height t ≤ 127 := by
  have hleaves := length_le_of_nodup _ ((treeOk_iff t).1 h).2
  have hheight := height_lt_leaves t
  omega

/-- Codes have at most 127 bits (R138). -/
theorem pathTo_length_le_127 {t : HuffTree} {p : List Bool} {x : Sym} (ht : treeOk t = true) (h : PathTo t p x) :
    p.length ≤ 127 :=
  (pathTo_length_le_height h).trans (height_le_127 ht)

/-- A leaf symbol is one that has a path. -/
theorem mem_leaves_iff_pathTo {t : HuffTree} {x : Sym} : x ∈ leaves t ↔ ∃ p, PathTo t p x := by
  rw [← walk_syms t [], List.mem_map]
  constructor
  · rintro ⟨⟨y, q⟩, hmem, rfl⟩
    obtain ⟨p, _, hp⟩ := (walk_iff t [] q y).1 hmem
    exact ⟨p, hp⟩
  · rintro ⟨p, hp⟩
    exact ⟨(x, p), (walk_iff t [] p x).2 ⟨p, rfl, hp⟩, rfl⟩

/-- GENCODES writes the path of every leaf symbol to its entry (R136). -/
theorem codesOf_of_pathTo {t : HuffTree} {p : List Bool} {x : Sym} (ht : treeOk t = true) (h : PathTo t p x) :
    (codesOf t)[x] = entryOfBits p := by
  have hnodup : ((walk t []).map Prod.fst).Nodup := by rw [walk_syms]; exact ((treeOk_iff t).1 ht).2
  exact writeCodes_written _ _ x p hnodup ((walk_iff t [] p x).2 ⟨p, rfl, h⟩)

/-- GENCODES leaves the entry of every other symbol absent (R137). -/
theorem codesOf_of_not_mem {t : HuffTree} {x : Sym} (h : x ∉ leaves t) : (codesOf t)[x] = { len := 0, bits := 0 } := by
  rw [← walk_syms t []] at h
  rw [codesOf, writeCodes_other _ _ x h, absentCodes_get]

/-- What GENCODES writes for a valid tree is its code table (R30, R136). -/
theorem isCodeTableOf_codesOf {t : HuffTree} (ht : treeOk t = true) : IsCodeTableOf (codesOf t) t := by
  constructor
  · intro p x hp
    have hlen := pathTo_length_le_127 ht hp
    rw [codesOf_of_pathTo ht hp]
    exact ⟨entryOfBits_len p (by omega), entryPath_entryOfBits p hlen⟩
  · intro x hx
    exact codesOf_of_not_mem fun hmem => (mem_leaves_iff_pathTo.1 hmem).elim hx

/-- Settles O4: the invariant says it of the model's own table `codesOf`, which is the one R30 asks for. -/
theorem codeIsAbsentOrThatOfTheTreeInEveryRun : Obligations.CodeIsAbsentOrThatOfTheTreeInEveryRun := by
  intro caps turns n t hcaps h
  have hinv := stateInv_of_run hcaps h
  obtain habsent | ⟨hv, hcode⟩ := hinv.codes
  · exact .inl fun x => by rw [habsent, absentCodes_get]
  · exact .inr ⟨hv, hcode ▸ isCodeTableOf_codesOf (hinv.tree hv)⟩

theorem exists_node_of_isNode {t : HuffTree} (h : isNode t = true) : ∃ l r, t = .node l r := by
  cases t with
  | leaf x => cases h
  | node l r => exact ⟨l, r, rfl⟩

/-- Settles O5: a valid tree is a `Node` of distinct leaf symbols, and there are 128 symbols. -/
theorem validTreeInEveryRun : Obligations.ValidTreeInEveryRun := by
  intro caps turns n t hcaps h hv
  have hok := (stateInv_of_run hcaps h).tree hv
  obtain ⟨hnode, hnodup⟩ := (treeOk_iff t.tree).1 hok
  have hleaves := length_le_of_nodup _ hnodup
  have hinternal := internalNodes_leaves t.tree
  exact ⟨exists_node_of_isNode hnode, hnodup, two_le_leaves hnode, hleaves, hinternal, by omega, height_le_127 hok⟩

/-! ### The state after a write of a register or of a byte -/

section
variable (s : State)

theorem State.getReg_setReg (v : Word) (r r' : DataReg) :
    (s.setReg v r).getReg r' = if r' = r then v else s.getReg r' := by
  cases r <;> cases r' <;> rfl

@[simp] theorem State.getReg_setReg_same (v : Word) (r : DataReg) : (s.setReg v r).getReg r = v := by
  rw [State.getReg_setReg, if_pos rfl]

theorem State.getReg_setReg_other (v : Word) {r r' : DataReg} (h : r' ≠ r) :
    (s.setReg v r).getReg r' = s.getReg r' := by
  rw [State.getReg_setReg, if_neg h]

@[simp] theorem State.bufOf_setReg (v : Word) (r : DataReg) (b : Buf) : (s.setReg v r).bufOf b = s.bufOf b := by
  cases r <;> cases b <;> rfl

theorem State.bufOf_putByte (i : Nat) (v : Byte) (b b' : Buf) :
    (s.putByte i v b).bufOf b' = if b' = b then (s.bufOf b).put i v else s.bufOf b' := by
  cases b <;> cases b' <;> rfl

@[simp] theorem State.bufOf_putByte_same (i : Nat) (v : Byte) (b : Buf) :
    (s.putByte i v b).bufOf b = (s.bufOf b).put i v := by
  rw [State.bufOf_putByte, if_pos rfl]

theorem State.bufOf_putByte_other (i : Nat) (v : Byte) {b b' : Buf} (h : b' ≠ b) :
    (s.putByte i v b).bufOf b' = s.bufOf b' := by
  rw [State.bufOf_putByte, if_neg h]

@[simp] theorem State.capOf_putByte (i : Nat) (v : Byte) (b b' : Buf) : (s.putByte i v b).capOf b' = s.capOf b' := by
  cases b <;> cases b' <;> rfl

/-- The capacities of the buffers are configuration. -/
theorem State.capOf_congr {s t : State} (h : s.caps = t.caps) (b : Buf) : s.capOf b = t.capOf b := by
  unfold State.capOf
  rw [h]

/-- The length of a buffer is the value of its length register (R31). -/
theorem State.lenOf_eq_getReg (b : Buf) : s.lenOf b = (s.getReg (lenRegOf b)).toNat := by
  cases b <;> rfl

end

theorem lenRegOf_injective : Function.Injective lenRegOf := by
  intro b b' h
  cases b <;> cases b' <;> simp_all [lenRegOf]

/-- The buffers the host may write, and what bounds the length the host may give them (R44). -/
theorem regBound_lenRegOf {s : State} {b : Buf} (hb : b ≠ .out) : s.regBound (lenRegOf b) = some (s.capOf b) := by
  cases b
  case out => exact absurd rfl hb
  all_goals rfl

/-! ### What a legal host access with BUSY = 0 answers -/

section
variable {s : State}

theorem hostAccess_of_idle (h : s.busy = false) (a : Access) : hostAccess a s = idleAccess a s :=
  if_neg (by simp [h])

theorem hostAccess_writeReg {r : DataReg} {v : Word} {bound : Nat} (h : s.busy = false)
    (hr : s.regBound r = some bound) (hv : v.toNat ≤ bound) : hostAccess (.writeReg r v) s = .next (s.setReg v r) := by
  rw [hostAccess_of_idle h]
  simp only [idleAccess, writeReg, hr, if_pos hv]

theorem hostAccess_writeByte {b : Buf} {i : Nat} (h : s.busy = false) (hb : b ≠ .out) (hi : i < s.capOf b)
    (v : Byte) : hostAccess (.writeByte b i v) s = .next (s.putByte i v b) := by
  rw [hostAccess_of_idle h]
  simp only [idleAccess, writeByte, if_neg hb, if_neg (Nat.not_le.2 hi)]

/-- Below the length register a read returns the byte (R72). -/
theorem hostAccess_readByte_below {b : Buf} {i : Nat} (h : s.busy = false) (hcap : i < s.capOf b)
    (hlen : i < s.lenOf b) : hostAccess (.readByte b i) s = .next (s.answer (.byte ((s.bufOf b).get i))) := by
  rw [hostAccess_of_idle h]
  simp only [idleAccess, readByte, if_neg (Nat.not_le.2 hcap), if_neg (Nat.not_le.2 hlen)]

/-- At or beyond the length register a read returns a byte of a new draw (R36). -/
theorem hostAccess_readByte_beyond {b : Buf} {i : Nat} (h : s.busy = false) (hcap : i < s.capOf b)
    (hlen : s.lenOf b ≤ i) : hostAccess (.readByte b i) s =
      .next { s.answer (.byte (Config.freeByte s.draws i)) with draws := s.draws + 1 } := by
  rw [hostAccess_of_idle h]
  simp only [idleAccess, readByte, if_neg (Nat.not_le.2 hcap), if_pos hlen]

/-- A meaningful byte reads as it stands in the buffer. -/
theorem hostAccess_readByte_of_bytes {b : Buf} {i : Nat} {v : Byte} (h : s.busy = false) (hcap : i < s.capOf b)
    (hv : ((s.bufOf b).bytes (s.lenOf b))[i]? = some v) :
    hostAccess (.readByte b i) s = .next (s.answer (.byte v)) := by
  obtain ⟨hi, hget⟩ := List.getElem?_eq_some_iff.1 hv
  rw [Buffer.getElem_bytes] at hget
  rw [Buffer.length_bytes] at hi
  rw [hostAccess_readByte_below h hcap hi, hget]

end

/-- Settles O20: a register write stores into the register it names, and a CNT write into the entry it names. -/
theorem registerWritesStoreExactly : Obligations.RegisterWritesStoreExactly := by
  intro s hbusy
  constructor
  · intro r v bound hr hv
    refine ⟨_, hostAccess_writeReg hbusy hr hv, s.getReg_setReg_same v r, fun _ => s.getReg_setReg_other v, ?_⟩
    cases r
    case outLen => cases hr
    all_goals rfl
  · intro x w
    refine ⟨_, hostAccess_of_idle hbusy _, by simp, fun y hy => ?_, rfl⟩
    have hne : (x : Nat) ≠ y := fun h => hy (Fin.ext h.symm)
    simp [hne]

/-- Settles O21: a byte write lists the byte in its buffer, which any later read below the length finds. -/
theorem byteWritesStoreExactly : Obligations.ByteWritesStoreExactly := by
  intro s b i v hbusy hb hi
  refine ⟨_, hostAccess_writeByte hbusy hb hi v, fun b' j hother => ?_, ?_, fun u hubusy hcaps hbuf hlen => ?_⟩
  · by_cases hb' : b' = b
    · subst hb'
      rw [State.bufOf_putByte_same, Buffer.get_put_other _ _ (hother.resolve_left (absurd rfl))]
    · rw [State.bufOf_putByte_other _ _ _ hb']
  · cases b
    case out => exact absurd rfl hb
    all_goals rfl
  · have hcap : i < u.capOf b := by rwa [State.capOf_congr hcaps, State.capOf_putByte]
    rw [hostAccess_readByte_below hubusy hcap hlen, hbuf, State.bufOf_putByte_same, Buffer.get_put_same]
    rfl

/-- Settles O22, the branch of the read beyond the length. -/
theorem readsBeyondTheLengthAreFree : Obligations.ReadsBeyondTheLengthAreFree :=
  fun _ _ _ hbusy hlen hcap => hostAccess_readByte_beyond hbusy hcap hlen

/-- A read that answers records its answer, and may count a free value. -/
theorem hostAccess_read_next {s t : State} {a : Access}
    (ha : a = .readStatus ∨ (∃ r, a = .readReg r) ∨ (∃ x, a = .readCnt x) ∨ (∃ x, a = .readCode x) ∨
      (∃ b i, a = .readByte b i)) (h : hostAccess a s = .next t) :
    ∃ v d, t = { s.answer v with draws := d } := by
  unfold hostAccess at h
  split at h
  · obtain ⟨_, rfl⟩ := busyAccess_next h
    exact ⟨_, s.draws, rfl⟩
  · obtain ⟨op, rfl, _⟩ | hanswer | ⟨r, v, _, rfl, _⟩ | ⟨x, w, rfl, _⟩ | ⟨b, i, v, rfl, _⟩ := idleAccess_next h
    · simp at ha
    · exact hanswer
    · simp at ha
    · simp at ha
    · simp at ha

/-- Settles O23: a read changes the record of answers and the count of draws alone, and its answer is the item. -/
theorem readsHaveNoSideEffect : Obligations.ReadsHaveNoSideEffect := by
  constructor
  · intro s t a ha h
    obtain ⟨v, d, rfl⟩ := hostAccess_read_next ha h
    exact ⟨v, rfl⟩
  · intro s hbusy
    have hread := hostAccess_of_idle hbusy
    exact ⟨hread _, hread _, hread _, hread _, hread _, fun _ => hread _, fun _ => hread _,
      fun _ _ => hostAccess_readByte_of_bytes (b := .src) hbusy,
      fun _ _ => hostAccess_readByte_of_bytes (b := .tok) hbusy,
      fun _ _ => hostAccess_readByte_of_bytes (b := .pay) hbusy,
      fun _ _ => hostAccess_readByte_of_bytes (b := .out) hbusy⟩

/-! ### STATUS and the two resets -/

/-- The code of an error kind is 1 to 8 (R200). -/
theorem ErrKind.code_bounds (e : ErrKind) : 1 ≤ e.code.toNat ∧ e.code.toNat ≤ 8 := by
  cases e <;> decide

/-- Where the fields of a word of STATUS's layout stand (R25). -/
theorem statusWord_fields : ∀ (err : BitVec 4) (treeValid busy : Bool),
    let word : BitVec 32 := (0 : BitVec 24) ++ err ++ (0 : BitVec 2) ++ BitVec.ofBool treeValid ++ BitVec.ofBool busy
    word.getLsbD 0 = busy ∧ word.getLsbD 1 = treeValid ∧ word.extractLsb' 2 2 = 0 ∧ word.extractLsb' 4 4 = err ∧
      word.extractLsb' 8 24 = 0 := by
  decide

theorem errField_le_8 (s : State) : s.errField.toNat ≤ 8 := by
  unfold State.errField
  split
  · decide
  · next e _ => exact e.code_bounds.2

theorem errField_eq_zero_iff (s : State) : s.errField = 0 ↔ s.err = none := by
  unfold State.errField
  split
  · next hnone => simp [hnone]
  · next e he =>
    have hpos := e.code_bounds.1
    have hne : e.code ≠ 0#4 := by
      intro h0
      rw [h0] at hpos
      exact absurd hpos (by decide)
    simp [he, hne]

/-- Settles O24: the layout is that of the word, and ERR in it is the field of an error code or 0. -/
theorem statusLayout : Obligations.StatusLayout := by
  intro s
  obtain ⟨hbusy, htreeValid, hlow, herr, hhigh⟩ := statusWord_fields s.errField s.treeValid s.busy
  refine ⟨hbusy, htreeValid, hlow, ?_, hhigh, ?_, fun hidle => hostAccess_of_idle hidle _⟩
  · exact (congrArg BitVec.toNat herr).trans_le (errField_le_8 s)
  · exact (Eq.congr_left herr).trans (errField_eq_zero_iff s)

theorem status_eq_zero {s : State} (hbusy : s.busy = false) (hv : s.treeValid = false) (herr : s.err = none) :
    s.status = 0 := by
  unfold State.status State.errField
  rw [hbusy, hv, herr]
  rfl

theorem zeroCounts_get (x : Sym) : zeroCounts[x] = 0 := by simp [zeroCounts]

/-- Settles O1: both states have the values of the table. -/
theorem resetGivesTheTableOfR45 : Obligations.ResetGivesTheTableOfR45 := by
  intro s
  refine ⟨s.resetBlock, rfl, ?_⟩
  rintro u (rfl | rfl)
  · exact ⟨rfl, rfl, rfl, status_eq_zero rfl rfl rfl, fun r => by cases r <;> rfl, zeroCounts_get, absentCodes_get⟩
  · exact ⟨rfl, rfl, rfl, status_eq_zero rfl rfl rfl, fun r => by cases r <;> rfl, zeroCounts_get, absentCodes_get⟩

/-- Settles O58: the reset state and the state SRST leaves differ in the fields named alone, and no buffer lists a
byte. -/
theorem srstGivesTheResetState : Obligations.SrstGivesTheResetState := by
  intro s
  exact ⟨s.resetBlock, rfl, rfl, fun b => by cases b <;> rfl⟩

/-! ### LOAD (R105) -/

theorem play_cons {x : Turn} {s s' : State} (h : takeTurn x s = .next s') (ts : List Turn) :
    play (x :: ts) s = play ts s' := by
  simp only [play, h]

theorem play_host {a : Access} {s s' : State} (h : hostAccess a s = .next s') (ts : List Turn) :
    play (.host a :: ts) s = play ts s' :=
  play_cons (x := .host a) h ts

/-- Turns answer a next state through the first of them. -/
theorem play_cons_next {x : Turn} {ts : List Turn} {s t : State} (h : play (x :: ts) s = .next t) :
    ∃ s', takeTurn x s = .next s' ∧ play ts s' = .next t := by
  unfold play at h
  split at h
  · next s' hs' => exact ⟨s', hs', h⟩
  · cases h
  · cases h

theorem play_append (ts us : List Turn) {s t : State} (h : play ts s = .next t) : play (ts ++ us) s = play us t := by
  induction ts generalizing s with
  | nil => cases h; rfl
  | cons x ts ih =>
    obtain ⟨s', hs', h⟩ := play_cons_next h
    rw [List.cons_append, play_cons hs', ih h]

/-- What writing bytes to a buffer from index `i` on leaves: the bytes there, and everything else as it was. -/
structure BytesWritten (b : Buf) (i : Nat) (bytes : List Byte) (s t : State) : Prop where
  written : ∀ k (hk : k < bytes.length), (t.bufOf b).get (i + k) = bytes[k]
  below : ∀ j, j < i → (t.bufOf b).get j = (s.bufOf b).get j
  others : ∀ b', b' ≠ b → t.bufOf b' = s.bufOf b'
  frame : t = { s with src := t.src, tok := t.tok, pay := t.pay }

theorem State.putByte_frame (s : State) (i : Nat) (v : Byte) {b : Buf} (hb : b ≠ .out) :
    s.putByte i v b =
      { s with src := (s.putByte i v b).src, tok := (s.putByte i v b).tok, pay := (s.putByte i v b).pay } := by
  cases b
  case out => exact absurd rfl hb
  all_goals rfl

/-- The byte writes of LOAD all succeed within the capacity (R43). -/
theorem play_writesFrom {b : Buf} (hb : b ≠ .out) (bytes : List Byte) (i : Nat) (s : State) (hbusy : s.busy = false)
    (hcap : i + bytes.length ≤ s.capOf b) :
    ∃ t, play (writesFrom b i bytes) s = .next t ∧ BytesWritten b i bytes s t := by
  induction bytes generalizing i s with
  | nil => exact ⟨s, rfl, nofun, fun _ _ => rfl, fun _ _ => rfl, rfl⟩
  | cons v vs ih =>
    rw [List.length_cons] at hcap
    have hframe := s.putByte_frame i v hb
    obtain ⟨t, ht, hw⟩ := ih (i + 1) (s.putByte i v b) (by simpa using hbusy) (by rw [State.capOf_putByte]; omega)
    refine ⟨t, ?_, ?_, fun j hj => ?_, fun b' hb' => ?_, ?_⟩
    · rw [writesFrom, play_host (hostAccess_writeByte hbusy hb (by omega) v), ht]
    · rintro (_ | k) hk
      · rw [Nat.add_zero, hw.below i (Nat.lt_succ_self i), State.bufOf_putByte_same, Buffer.get_put_same]
        rfl
      · rw [← Nat.add_assoc, Nat.add_right_comm]
        exact hw.written k (Nat.lt_of_succ_lt_succ hk)
    · rw [hw.below j (by omega), State.bufOf_putByte_same, Buffer.get_put_other _ _ (by omega)]
    · rw [hw.others b' hb', State.bufOf_putByte_other _ _ _ hb']
    · rw [hw.frame, hframe]

theorem toNat_ofNat64 {n : Nat} (h : n < 2 ^ 64) : (BitVec.ofNat 64 n).toNat = n := by
  rw [BitVec.toNat_ofNat, Nat.mod_eq_of_lt h]

/-- A legal length is written to the length register of a buffer (R44). -/
theorem hostAccess_writeLength {s : State} {b : Buf} {n : Nat} (hbusy : s.busy = false) (hb : b ≠ .out)
    (hn : n ≤ s.capOf b) :
    hostAccess (.writeReg (lenRegOf b) (BitVec.ofNat 64 n)) s = .next (s.setReg (BitVec.ofNat 64 n) (lenRegOf b)) :=
  hostAccess_writeReg hbusy (regBound_lenRegOf hb) (toNat_ofNat64_le hn)

/-- Every capacity is below 2^64 (R10), so a legal length is the value of a 64-bit register. -/
theorem capOf_lt {s : State} (h : s.caps.wf = true) (b : Buf) : s.capOf b < 2 ^ 64 := by
  simp only [Config.Caps.wf, Bool.and_eq_true, decide_eq_true_eq] at h
  cases b <;> simp only [State.capOf, tokCap] <;> omega

theorem State.lenOf_setReg_same (s : State) (v : Word) (b : Buf) : (s.setReg v (lenRegOf b)).lenOf b = v.toNat := by
  rw [State.lenOf_eq_getReg, State.getReg_setReg_same]

theorem State.lenOf_setReg_other (s : State) (v : Word) {b b' : Buf} (h : b' ≠ b) :
    (s.setReg v (lenRegOf b)).lenOf b' = s.lenOf b' := by
  rw [State.lenOf_eq_getReg, State.getReg_setReg_other _ _ (lenRegOf_injective.ne h), State.lenOf_eq_getReg]

theorem BytesWritten.bytes_eq {b : Buf} {bytes : List Byte} {s t : State} (h : BytesWritten b 0 bytes s t) :
    (t.bufOf b).bytes bytes.length = bytes := by
  refine List.ext_getElem (Buffer.length_bytes _ _) fun k _ hk => ?_
  rw [Buffer.getElem_bytes, ← h.written k hk, Nat.zero_add]

/-- Settles O27: LOAD writes the bytes from index 0 on and then their number, which the length register can hold. -/
theorem loadFillsTheBuffer : Obligations.LoadFillsTheBuffer := by
  intro s b bytes hbusy hcaps hb hlen
  obtain ⟨t, ht, hw⟩ := play_writesFrom hb bytes 0 s hbusy (by rwa [Nat.zero_add])
  have hframe := hw.frame
  have htbusy : t.busy = false := by rw [hframe]; exact hbusy
  have htcap : t.capOf b = s.capOf b := State.capOf_congr (by rw [hframe]) b
  have htlen : ∀ b', t.lenOf b' = s.lenOf b' := fun b' => by rw [hframe]; cases b' <;> rfl
  refine ⟨t.setReg (BitVec.ofNat 64 bytes.length) (lenRegOf b), ?_, ?_, ?_, fun b' hb' => ⟨?_, ?_⟩, ?_⟩
  · rw [loadTurns, play_append _ _ ht]
    exact play_host (hostAccess_writeLength htbusy hb (htcap ▸ hlen)) []
  · rw [State.lenOf_setReg_same, toNat_ofNat64 (hlen.trans_lt (capOf_lt hcaps b))]
  · rw [State.bufOf_setReg, hw.bytes_eq]
  · rw [State.bufOf_setReg, hw.others b' hb']
  · rw [State.lenOf_setReg_other _ _ hb', htlen]
  · rw [hframe]
    cases b
    case out => exact absurd rfl hb
    all_goals rfl

/-! ### The merge loop is the one R127 describes -/

theorem QEntry.before_iff (x y : QEntry) : x.before y = true ↔ Precedes x y := by
  simp [QEntry.before, Precedes]

/-- No entry of the queue precedes the one `extractMin` takes (R127). -/
theorem not_precedes_extractMin (x : QEntry) (xs : List QEntry) : ∀ e ∈ x :: xs, ¬ Precedes e (extractMin x xs).1 := by
  induction xs generalizing x with
  | nil =>
    intro e he
    obtain rfl := List.mem_singleton.1 he
    simp [extractMin, Precedes]
  | cons y ys ih =>
    unfold extractMin
    split
    · next hyx =>
      -- `y` precedes `x`, and the least of `y :: ys` does not follow `y`
      rw [QEntry.before_iff] at hyx
      have hx : ¬ Precedes x (extractMin y ys).1 := by
        have hy := ih y y List.mem_cons_self
        unfold Precedes at *
        omega
      exact List.forall_mem_cons.2 ⟨hx, ih y⟩
    · next hyx =>
      rw [QEntry.before_iff] at hyx
      have hx := ih x x List.mem_cons_self
      have hy : ¬ Precedes y (extractMin x ys).1 := by
        unfold Precedes at *
        omega
      have hys := (List.forall_mem_cons.1 (ih x)).2
      exact List.forall_mem_cons.2 ⟨hx, List.forall_mem_cons.2 ⟨hy, hys⟩⟩

/-- When one entry of the queue precedes every other, `extractMin` takes it and leaves the others. -/
theorem extractMin_of_precedes {a x : QEntry} {xs : List QEntry} {rest : Multiset QEntry}
    (hq : (↑(x :: xs) : Multiset QEntry) = a ::ₘ rest) (ha : ∀ e ∈ rest, Precedes a e) :
    (extractMin x xs).1 = a ∧ (↑(extractMin x xs).2 : Multiset QEntry) = rest := by
  have hsplit : (extractMin x xs).1 ::ₘ (↑(extractMin x xs).2 : Multiset QEntry) = a ::ₘ rest :=
    (Multiset.coe_eq_coe.2 (extractMin_perm x xs)).trans hq
  have hfirst : (extractMin x xs).1 = a := by
    by_contra hne
    have hmem : (extractMin x xs).1 ∈ rest :=
      (Multiset.mem_cons.1 (hsplit ▸ Multiset.mem_cons_self _ _)).resolve_left hne
    have hamem : a ∈ x :: xs := Multiset.mem_coe.1 (hq ▸ Multiset.mem_cons_self a rest)
    exact not_precedes_extractMin x xs a hamem (ha _ hmem)
  rw [hfirst] at hsplit
  exact ⟨hfirst, (Multiset.cons_inj_right a).1 hsplit⟩

/-- The model's loop computes the tree of every merge R127 allows, so there is only one. -/
theorem mergeLoop_of_mergesTo {k : Nat} {q : Multiset QEntry} {tr : HuffTree} (h : MergesTo k q tr) :
    ∀ (fuel : Nat) (x : QEntry) (xs : List QEntry), (↑(x :: xs) : Multiset QEntry) = q → xs.length ≤ fuel →
      mergeLoop fuel k x xs = tr := by
  induction h with
  | root k e =>
    intro fuel x xs hq _
    obtain ⟨rfl, rfl⟩ : x = e ∧ xs = [] := by
      have := Multiset.coe_eq_singleton.1 hq
      simpa using this
    cases fuel <;> rfl
  | @merge k a b rest tr ha hb _ ih =>
    intro fuel x xs hq hf
    obtain ⟨hx, hxs⟩ := extractMin_of_precedes hq ha
    have hcard : xs.length = rest.card + 1 := by
      have := congrArg Multiset.card hq
      simpa using this
    obtain _ | fuel := fuel
    · omega
    unfold mergeLoop
    split
    · next a' hm =>
      rw [hm] at hxs
      exact absurd hxs (Multiset.zero_ne_cons (m := rest))
    · next a' y ys hm =>
      rw [hm] at hx hxs
      obtain ⟨hy, hys⟩ := extractMin_of_precedes hxs hb
      split
      next b' rest' hm' =>
      rw [hm'] at hy hys
      cases hx
      cases hy
      refine ih fuel _ rest' (by rw [← hys]; rfl) ?_
      have := congrArg Multiset.card hys
      simp only [Multiset.coe_card] at this
      omega

/-! ### BUILD on the counts of a source -/

theorem startQueue_eq (cnt : Vector Word 128) : startQueue cnt = (↑(initialQueue cnt) : Multiset QEntry) := by
  rw [initialQueue_eq_map]
  rfl

/-- With two symbols or more, whose weights sum to less than 2^64, BUILD runs its loop (R123 to R126). -/
theorem buildTree_runs_mergeLoop {cnt : Vector Word 128} (htwo : 2 ≤ (presentSymbols cnt).length)
    (hsum : weightSum cnt < 2 ^ 64) :
    ∃ x xs, initialQueue cnt = x :: xs ∧ buildTree cnt = .ok (mergeLoop (xs.length + 1) 0 x xs) := by
  have hlen : (initialQueue cnt).length = (presentSymbols cnt).length := by
    rw [initialQueue_eq_map, List.length_map]
  unfold buildTree
  split
  · next hq => simp only [hq, List.length_nil] at hlen; omega
  · next hq => simp only [hq, List.length_singleton] at hlen; omega
  · next x y q hq =>
    rw [if_neg (Nat.not_le.2 hsum)]
    exact ⟨x, y :: q, hq, rfl⟩

theorem buildTree_of_mergesTo {cnt : Vector Word 128} {tr : HuffTree} (htwo : 2 ≤ (presentSymbols cnt).length)
    (hsum : weightSum cnt < 2 ^ 64) (h : MergesTo 0 (startQueue cnt) tr) : buildTree cnt = .ok tr := by
  obtain ⟨x, xs, hq, hbuild⟩ := buildTree_runs_mergeLoop htwo hsum
  rw [startQueue_eq, hq] at h
  rw [hbuild, mergeLoop_of_mergesTo h _ x xs rfl (Nat.le_succ _)]

theorem mem_presentSymbols {cnt : Vector Word 128} {x : Sym} : x ∈ presentSymbols cnt ↔ cnt[x] ≠ 0 := by
  simp [presentSymbols]

/-- The entries of CNT are the numbers of occurrences of the symbols (R110). -/
def CountsOf (cnt : Vector Word 128) (xs : List Sym) : Prop := ∀ x : Sym, cnt[x].toNat = xs.count x

section
variable {cnt : Vector Word 128} {xs : List Sym}

theorem CountsOf.mem_presentSymbols_iff (h : CountsOf cnt xs) {x : Sym} : x ∈ presentSymbols cnt ↔ x ∈ xs := by
  have hzero : cnt[x] = 0 ↔ xs.count x = 0 := by
    rw [← h x, ← BitVec.toNat_inj]
    rfl
  rw [mem_presentSymbols, Ne, hzero, List.count_eq_zero, not_not]

theorem CountsOf.two_le_presentSymbols (h : CountsOf cnt xs) (hxs : ∃ x ∈ xs, ∃ y ∈ xs, x ≠ y) :
    2 ≤ (presentSymbols cnt).length := by
  obtain ⟨x, hx, y, hy, hxy⟩ := hxs
  have hsub : [x, y] ⊆ presentSymbols cnt := by
    simp [h.mem_presentSymbols_iff, hx, hy]
  exact (List.nodup_cons.2 ⟨by simpa using hxy, List.nodup_singleton y⟩).subperm hsub |>.length_le

/-- The counts of a source sum to its length (R114). -/
theorem CountsOf.weightSum_eq (h : CountsOf cnt xs) : weightSum cnt = xs.length := by
  have hsum : weightSum cnt = ∑ x : Sym, xs.count x := by
    rw [← List.sum_ofFn, List.ofFn_eq_map]
    exact congrArg List.sum (List.map_congr_left fun x _ => h x)
  rw [hsum]
  have hcard := Multiset.sum_count_eq_card (s := Finset.univ) (m := (↑xs : Multiset Sym)) fun x _ => Finset.mem_univ x
  simpa only [Multiset.coe_count, Multiset.coe_card] using hcard

/-- From zero counts the entry of every symbol becomes its number of occurrences, mod 2^64. -/
theorem tally_zeroCounts (xs : List Sym) :
    ∃ v, tally (xs.map byteOf) zeroCounts = some v ∧ ∀ x : Sym, v[x] = BitVec.ofNat 64 (xs.count x) := by
  obtain ⟨v, htally, hv⟩ := tally_ok xs zeroCounts
  exact ⟨v, htally, fun x => by rw [hv x, zeroCounts_get, zero_add]⟩

/-- COUNT computes the counts of its source (R110, R111). -/
theorem countResult_of_countsOf {s : State} (hsource : s.source = xs.map byteOf) (h : CountsOf cnt xs) :
    countResult s = .ok { s with cnt } := by
  obtain ⟨v, htally, hv⟩ := tally_zeroCounts xs
  have hentry : ∀ x : Sym, v[x] = cnt[x] := fun x => by
    rw [hv x, ← h x, BitVec.ofNat_toNat, BitVec.setWidth_eq]
  have hcnt : v = cnt := Vector.ext fun i hi => hentry ⟨i, hi⟩
  unfold countResult
  rw [hsource, htally, hcnt]

/-- A source of less than 2^64 bytes has its counts. -/
theorem exists_countsOf (hlen : xs.length < 2 ^ 64) : ∃ cnt, CountsOf cnt xs := by
  obtain ⟨v, _, hv⟩ := tally_zeroCounts xs
  refine ⟨v, fun x => ?_⟩
  have hcount : xs.count x < 2 ^ 64 := List.count_le_length.trans_lt hlen
  rw [hv x, toNat_ofNat64 hcount]

end

/-! ### ENCODE with the code table of a tree -/

section
variable {tr : HuffTree}

theorem pathTo_length_pos {p : List Bool} {x : Sym} (hnode : isNode tr = true) (h : PathTo tr p x) : 0 < p.length := by
  cases h with
  | leaf x => cases hnode
  | left _ => exact Nat.succ_pos _
  | right _ => exact Nat.succ_pos _

/-- In the code table of a valid tree the entry of a leaf symbol is present. -/
theorem presentEntry_codesOf {p : List Bool} {x : Sym} (ht : treeOk tr = true) (h : PathTo tr p x) :
    presentEntry (codesOf tr) (byteOf x) = some (entryOfBits p) := by
  have hpos := pathTo_length_pos ((treeOk_iff tr).1 ht).1 h
  have hlen := entryOfBits_len p (Nat.lt_of_le_of_lt (pathTo_length_le_127 ht h) (by decide))
  have hpresent : entryAbsent (entryOfBits p) = false := by
    refine beq_false_of_ne fun hzero => ?_
    rw [hzero] at hlen
    exact absurd hlen.symm hpos.ne'
  simp only [presentEntry, symOf_byteOf, codesOf_of_pathTo ht h, hpresent, Bool.false_eq_true, if_false]

theorem ceil8_mono {m n : Nat} (h : m ≤ n) : ceil8 m ≤ ceil8 n :=
  Nat.div_le_div_right (Nat.add_le_add_right h 7)

/-- ENCODE emits the paths of the source symbols, when the packed bits fit PAY (R165). -/
theorem encodeBits_of_coded {bits : List Bool} {xs : List Sym} (ht : treeOk tr = true) (h : Coded tr bits xs)
    {cap n : Nat} (hfit : ceil8 (n + bits.length) ≤ cap) :
    encodeBits (codesOf tr) cap (xs.map byteOf) n = .ok bits := by
  induction h generalizing n with
  | nil => rfl
  | @cons p bits x xs hp _ ih =>
    have hlen := pathTo_length_le_127 ht hp
    rw [List.length_append, ← Nat.add_assoc] at hfit
    have hfirst : ¬ cap < ceil8 (n + p.length) :=
      Nat.not_lt.2 ((ceil8_mono (Nat.le_add_right _ bits.length)).trans hfit)
    simp only [List.map_cons, encodeBits, presentEntry_codesOf ht hp, entryOfBits_len p (by omega), if_neg hfirst,
      ih hfit, entryPath_entryOfBits p hlen]

/-- A list of leaf symbols has a coded bit stream. -/
theorem exists_coded {xs : List Sym} (h : ∀ x ∈ xs, x ∈ leaves tr) : ∃ bits, Coded tr bits xs := by
  induction xs with
  | nil => exact ⟨[], .nil⟩
  | cons x xs ih =>
    obtain ⟨hx, hxs⟩ := List.forall_mem_cons.1 h
    obtain ⟨p, hp⟩ := mem_leaves_iff_pathTo.1 hx
    obtain ⟨bits, hbits⟩ := ih hxs
    exact ⟨p ++ bits, .cons hp hbits⟩

/-- No code is longer than 127 bits. -/
theorem coded_length_le {bits : List Bool} {xs : List Sym} (ht : treeOk tr = true) (h : Coded tr bits xs) :
    bits.length ≤ 127 * xs.length := by
  induction h with
  | nil => exact Nat.zero_le _
  | cons hp _ ih =>
    have hlen := pathTo_length_le_127 ht hp
    rw [List.length_append, List.length_cons]
    omega

end

/-! ### What a successful write leaves to read back -/

theorem State.tokens_writeTok (s : State) {bs : List Byte} (h : bs.length < 2 ^ 64) : (s.writeTok bs).tokens = bs := by
  show (Buffer.holding bs s.draws).bytes (BitVec.ofNat 64 bs.length).toNat = bs
  rw [toNat_ofNat64 h, Buffer.bytes_holding]

/-- The packed payload holds the bits ENCODE emitted (R66, R95). -/
theorem State.payloadBits_writePay (s : State) {bits : List Bool} (h : bits.length < 2 ^ 64) :
    (s.writePay (packBits bits) bits.length).payloadBits = bits := by
  unfold State.payloadBits
  rw [State.writePay_bitLen, State.writePay_pay, toNat_ofNat64 h]
  refine List.ext_getElem (by simp) fun i _ hi => ?_
  have hpacked : i < 8 * ceil8 bits.length := by
    unfold ceil8
    omega
  rw [List.getElem_map, List.getElem_range, streamBit_packBits bits _ i hpacked, List.getElem?_eq_getElem hi]
  rfl

/-! ### COMPRESS on its source (R185) -/

/-- COMPRESS succeeds when each of its stages does. -/
theorem compressResult_of_stages {s counted built coded encoded t : State} (hcount : countResult s = .ok counted)
    (hbuild : buildResult counted = .ok built) (hgencodes : gencodesResult built = .ok coded)
    (hencode : encodeResult coded = .ok encoded) (hserialize : serializeResult encoded = .ok t) :
    compressResult s = .ok t := by
  simp only [compressResult, bind, Except.bind, hcount, hbuild, hgencodes, hencode, hserialize]

/-- The state after COUNT, BUILD and GENCODES: the counts, the tree and its codes. -/
def tabled (s : State) (cnt : Vector Word 128) (tr : HuffTree) : State :=
  { s with cnt, tree := tr, treeValid := true, code := codesOf tr }

/-- What COMPRESS leaves: those tables, the packed bits and the token stream. -/
def compressed (s : State) (cnt : Vector Word 128) (tr : HuffTree) (bits : List Bool) : State :=
  ((tabled s cnt tr).writePay (packBits bits) bits.length).writeTok (ser tr)

/-- COMPRESS completes when BUILD makes a tree of the counts of the source and the packed paths fit PAY. -/
theorem exec_compress_of_coded {s : State} {xs : List Sym} {cnt : Vector Word 128} {tr : HuffTree} {bits : List Bool}
    (hsource : s.source = xs.map byteOf) (hcounts : CountsOf cnt xs) (hbuild : buildTree cnt = .ok tr)
    (hcoded : Coded tr bits xs) (hfit : ceil8 bits.length ≤ s.caps.payCap) :
    exec .compress s = .next (compressed s cnt tr bits) := by
  have hbuilt : buildResult { s with cnt } = .ok (State.installTree { s with cnt } tr) := by
    simp only [buildResult, hbuild]
  have hencoded :
      encodeResult (tabled s cnt tr) = .ok ((tabled s cnt tr).writePay (packBits bits) bits.length) := by
    have hbits : encodeBits (tabled s cnt tr).code (tabled s cnt tr).caps.payCap (tabled s cnt tr).source 0 =
        .ok bits := by
      rw [show (tabled s cnt tr).source = xs.map byteOf from hsource]
      exact encodeBits_of_coded (treeOk_of_buildTree hbuild) hcoded (by rwa [Nat.zero_add])
    unfold encodeResult
    rw [hbits]
  have hresult := compressResult_of_stages (countResult_of_countsOf hsource hcounts) hbuilt
    (gencodesResult_of_valid rfl) hencoded (serializeResult_of_valid rfl)
  exact congrArg (Host.Outcome.next ∘ conclude State.dropCompressed s) hresult

/-- A legal source has at most 2^56 bytes (R10, R44). -/
theorem StateInv.source_length_le {s : State} {xs : List Sym} (hs : StateInv s) (hsource : s.source = xs.map byteOf) :
    xs.length ≤ 2 ^ 56 := by
  have hlen : xs.length = s.srcLen.toNat := by rw [← State.source_length, hsource, List.length_map]
  have hcap : s.srcLen.toNat ≤ s.caps.srcCap := hs.lengths .src
  have hcaps := hs.caps
  simp only [Config.Caps.wf, Bool.and_eq_true, decide_eq_true_eq] at hcaps
  omega

/-- Settles O60.  BUILD makes the one tree the merge loop allows.  For the second part every source symbol is a leaf of
that tree, so the source has a coded stream, of at most 127 bits a symbol. -/
theorem compressCompletesOnEverySourceThatFits : Obligations.CompressCompletesOnEverySourceThatFits := by
  constructor
  · intro s xs cnt tr bits hs hsource hdistinct hcounts hmerges hcoded hfit
    have hxs := hs.source_length_le hsource
    have hsum : weightSum cnt < 2 ^ 64 := by rw [CountsOf.weightSum_eq hcounts]; omega
    have hbuild := buildTree_of_mergesTo (CountsOf.two_le_presentSymbols hcounts hdistinct) hsum hmerges
    have htree := treeOk_of_buildTree hbuild
    have hbits : bits.length < 2 ^ 64 := by
      have := coded_length_le htree hcoded
      omega
    have htok : (ser tr).length < 2 ^ 64 := (ser_length_le_tokCap htree).trans_lt (by decide)
    refine ⟨compressed s cnt tr bits, exec_compress_of_coded hsource hcounts hbuild hcoded hfit,
      isCodeTableOf_codesOf htree, State.payloadBits_writePay _ hbits, toNat_ofNat64 hbits, ?_,
      State.tokens_writeTok _ htok, rfl⟩
    have hpack : (packBits bits).length = (bits.length + 7) / 8 := packBits_length bits
    exact (toNat_ofNat64 (by omega)).trans hpack
  · intro s xs hs hsource hdistinct hfit
    have hxs := hs.source_length_le hsource
    obtain ⟨cnt, hcounts⟩ := exists_countsOf (xs := xs) (by omega)
    have hsum : weightSum cnt < 2 ^ 64 := by rw [hcounts.weightSum_eq]; omega
    obtain ⟨_, _, _, hbuild⟩ := buildTree_runs_mergeLoop (hcounts.two_le_presentSymbols hdistinct) hsum
    have hleaves := (buildTree_ok hbuild).2
    obtain ⟨bits, hcoded⟩ := exists_coded fun x hx => hleaves.mem_iff.2 (hcounts.mem_presentSymbols_iff.2 hx)
    have hbits := ceil8_mono (coded_length_le (treeOk_of_buildTree hbuild) hcoded)
    exact ⟨_, exec_compress_of_coded hsource hcounts hbuild hcoded (hbits.trans hfit), rfl, rfl, hcounts⟩

end Sys2Proof.Machine

/-! The statements about packed bits, the container and the pending command (spec/20_memory.md R63, R66, R73): what
ENCODE packs into PAY, that the host's container parses back, and that a step runs the command in flight. -/

namespace Sys2Proof.Machine

/-! ### ENCODE on a source all of whose symbols have a code (R165) -/

/-- The bits ENCODE emits for a list of symbols: their codes, one after another. -/
def codeBits (code : Vector CodeEntry 128) (xs : List Sym) : List Bool :=
  xs.flatMap fun x => entryPath code[x]

section
variable {code : Vector CodeEntry 128} {xs : List Sym}

theorem codeLength_cons (x : Sym) : codeLength code (x :: xs) = code[x].len.toNat + codeLength code xs := rfl

theorem codeBits_length : (codeBits code xs).length = codeLength code xs := by
  simp only [codeBits, codeLength, List.length_flatMap, entryPath_length]

/-- LEN is an 8-bit field (R29). -/
theorem codeLength_le : codeLength code xs ≤ 255 * xs.length := by
  induction xs with
  | nil => exact Nat.zero_le _
  | cons x xs ih =>
    have hlen := code[x].len.isLt
    rw [codeLength_cons, List.length_cons]
    omega

theorem presentEntry_byteOf {x : Sym} (h : code[x].len ≠ 0) : presentEntry code (byteOf x) = some code[x] := by
  have hpresent : entryAbsent code[x] = false := beq_false_of_ne h
  simp only [presentEntry, symOf_byteOf, hpresent, Bool.false_eq_true, if_false]

/-- ENCODE emits the codes of the source symbols, when every one has a code and the packed bits fit PAY. -/
theorem encodeBits_of_present (hcodes : ∀ x ∈ xs, code[x].len ≠ 0) {cap n : Nat}
    (hfit : ceil8 (n + codeLength code xs) ≤ cap) :
    encodeBits code cap (xs.map byteOf) n = .ok (codeBits code xs) := by
  induction xs generalizing n with
  | nil => rfl
  | cons x xs ih =>
    obtain ⟨hx, hxs⟩ := List.forall_mem_cons.1 hcodes
    rw [codeLength_cons, ← Nat.add_assoc] at hfit
    have hfirst : ¬ cap < ceil8 (n + code[x].len.toNat) :=
      Nat.not_lt.2 ((ceil8_mono (Nat.le_add_right _ _)).trans hfit)
    simp only [List.map_cons, encodeBits, presentEntry_byteOf hx, if_neg hfirst, ih hxs hfit]
    rfl

end

theorem exec_encode_of_bits {s : State} {bits : List Bool} (h : encodeBits s.code s.caps.payCap s.source 0 = .ok bits) :
    exec .encode s = .next (s.writePay (packBits bits) bits.length) := by
  have hresult : encodeResult s = .ok (s.writePay (packBits bits) bits.length) := by simp only [encodeResult, h]
  exact congrArg (Host.Outcome.next ∘ conclude State.dropPay s) hresult

/-- Settles O44.  A legal source has at most 2^56 bytes, of at most 255 bits each, so BITLEN does not wrap; its packed
form holds the codes and then 0. -/
theorem encodePacksTheCodesOfTheSource : Obligations.EncodePacksTheCodesOfTheSource := by
  intro s xs hcaps hsrc hsource hcodes hfit
  have hxs : xs.length = s.srcLen.toNat := by rw [← State.source_length, hsource, List.length_map]
  simp only [Config.Caps.wf, Bool.and_eq_true, decide_eq_true_eq] at hcaps
  have hlen : (codeBits s.code xs).length = codeLength s.code xs := codeBits_length
  have hbits : (codeBits s.code xs).length < 2 ^ 64 := by
    have := codeLength_le (code := s.code) (xs := xs)
    omega
  have hencode : encodeBits s.code s.caps.payCap s.source 0 = .ok (codeBits s.code xs) := by
    rw [hsource]
    exact encodeBits_of_present hcodes (by rwa [Nat.zero_add])
  have hpack : (packBits (codeBits s.code xs)).length = (codeLength s.code xs + 7) / 8 := by
    rw [packBits_length, hlen, ceil8]
  have hpayLen : (s.writePay (packBits (codeBits s.code xs)) (codeBits s.code xs).length).payLen.toNat =
      (codeLength s.code xs + 7) / 8 := (toNat_ofNat64 (by omega)).trans hpack
  refine ⟨_, exec_encode_of_bits hencode, (toNat_ofNat64 hbits).trans hlen, hpayLen,
    State.payloadBits_writePay s hbits, ?_, rfl⟩
  intro i hi hpad
  rw [hpayLen] at hpad
  rw [State.writePay_pay, streamBit_packBits _ _ _ (by rwa [hlen, ceil8]),
    List.getElem?_eq_none (by rwa [hlen]), Option.getD_none]

/-! ### The container (R100 to R103) -/

theorem slice_append_of_le {c : List Byte} {i n : Nat} (h : i + n ≤ c.length) (d : List Byte) :
    slice (c ++ d) i n = slice c i n := by
  rw [slice, slice, List.drop_append_of_le_length (by omega),
    List.take_append_of_le_length (by rw [List.length_drop]; omega)]

/-- A part of a container is the slice at its offset. -/
theorem slice_of_parts {c before part after : List Byte} (h : c = before ++ (part ++ after)) {i n : Nat}
    (hi : before.length = i) (hn : part.length = n) : slice c i n = part := by
  subst h hi hn
  rw [slice, List.drop_left, List.take_left]

theorem slice_length_le (c : List Byte) (i n : Nat) : (slice c i n).length ≤ n := List.length_take_le _ _

/-- `ContainerParse` said once (R102): L1 is at most TOK_CAP, and the container is long enough for the token stream, L2
and the payload that L1 and L2 announce. -/
theorem containerParse_eq_some_iff {c : List Byte} {k : Container} :
    containerParse c = some k ↔
      ∃ l1 l2, u64 (slice c 0 8) = l1 ∧ u64 (slice c (8 + l1) 8) = l2 ∧ l1 ≤ tokCap ∧
        16 + l1 + ceil8 l2 ≤ c.length ∧
        k = { tok := slice c 8 l1, bitLen := BitVec.ofNat 64 l2, pay := slice c (16 + l1) (ceil8 l2) } := by
  unfold containerParse
  constructor
  · intro h
    split at h <;> [cases h; split at h] <;> [cases h; split at h] <;> [cases h; split at h] <;> cases h
    exact ⟨_, _, rfl, rfl, by omega, by omega, rfl⟩
  · rintro ⟨l1, l2, rfl, rfl, hcap, hlen, rfl⟩
    rw [if_neg (by omega), if_neg (by omega), if_neg (by omega), if_neg (by omega)]

/-- Bytes after a container change nothing of its parse (log entry 9). -/
theorem containerParse_append {c : List Byte} {k : Container} (h : containerParse c = some k) (d : List Byte) :
    containerParse (c ++ d) = some k := by
  obtain ⟨l1, l2, h1, h2, hcap, hlen, rfl⟩ := containerParse_eq_some_iff.1 h
  have happend : ∀ i n, i + n ≤ 16 + l1 + ceil8 l2 → slice (c ++ d) i n = slice c i n :=
    fun i n hin => slice_append_of_le (hin.trans hlen) d
  refine containerParse_eq_some_iff.2 ⟨l1, l2, ?_, ?_, hcap, ?_, ?_⟩
  · rw [happend _ _ (by omega), h1]
  · rw [happend _ _ (by omega), h2]
  · rw [List.length_append]
    omega
  · rw [happend _ _ (by omega), happend _ _ (by omega)]

theorem frame_length (c : Container) : (frame c).length = 16 + c.tok.length + c.pay.length := by
  simp only [frame, List.length_append, le64_length]
  omega

/-- What parses is at least as long as the frame of its parts. -/
theorem frame_length_le_of_parse {c : List Byte} {k : Container} (h : containerParse c = some k) :
    (frame k).length ≤ c.length := by
  obtain ⟨l1, l2, -, -, -, hlen, rfl⟩ := containerParse_eq_some_iff.1 h
  have htok := slice_length_le c 8 l1
  have hpay := slice_length_le c (16 + l1) (ceil8 l2)
  rw [frame_length]
  dsimp only
  omega

/-- A container begins with L1 (R100). -/
theorem u64_slice_le64_append (v : Word) (rest : List Byte) : u64 (slice (le64 v ++ rest) 0 8) = v.toNat := by
  have hslice : slice (le64 v ++ rest) 0 8 = le64 v := slice_of_parts (before := []) rfl rfl (le64_length v)
  rw [hslice, u64_le64]

/-- The frame of legal parts parses back: each part is the slice at the offset the parts before it end at. -/
theorem containerParse_frame {c : Container} (htok : c.tok.length ≤ tokCap)
    (hpay : c.pay.length = ceil8 c.bitLen.toNat) : containerParse (frame c) = some c := by
  have hl1 : (BitVec.ofNat 64 c.tok.length).toNat = c.tok.length := toNat_ofNat64 (htok.trans_lt (by decide))
  have h1 : u64 (slice (frame c) 0 8) = c.tok.length := by
    simp only [frame, List.append_assoc, u64_slice_le64_append, hl1]
  have htokens : slice (frame c) 8 c.tok.length = c.tok :=
    slice_of_parts (by simp only [frame, List.append_assoc]; rfl) (le64_length _) rfl
  have hbitLen : slice (frame c) (8 + c.tok.length) 8 = le64 c.bitLen :=
    slice_of_parts (by rw [frame, List.append_assoc]) (by rw [List.length_append, le64_length]) (le64_length _)
  have hpayload : slice (frame c) (16 + c.tok.length) (ceil8 c.bitLen.toNat) = c.pay :=
    slice_of_parts (after := []) (by rw [frame, List.append_nil])
      (by simp only [List.length_append, le64_length]; omega) hpay
  refine containerParse_eq_some_iff.2 ⟨_, c.bitLen.toNat, h1, by rw [hbitLen, u64_le64], htok, ?_, ?_⟩
  · rw [frame_length, hpay]
  · rw [htokens, hpayload, BitVec.ofNat_toNat, BitVec.setWidth_eq]

/-- If a frame cut short parsed, its parse would be that of the whole frame, which is too long for it. -/
theorem containerParse_take_frame {c : Container} (h : containerParse (frame c) = some c) {n : Nat}
    (hn : n < (frame c).length) : containerParse ((frame c).take n) = none := by
  cases hk : containerParse ((frame c).take n) with
  | none => rfl
  | some k =>
    have hwhole := containerParse_append hk ((frame c).drop n)
    rw [List.take_append_drop, h] at hwhole
    obtain rfl : c = k := Option.some.inj hwhole
    exact absurd ((frame_length_le_of_parse hk).trans (List.length_take_le _ _)) (Nat.not_le.2 hn)

/-- L1 above TOK_CAP is rejected, whatever follows (R102). -/
theorem containerParse_of_tokCap_lt {v : Word} (h : tokCap < v.toNat) (rest : List Byte) :
    containerParse (le64 v ++ rest) = none := by
  cases hk : containerParse (le64 v ++ rest) with
  | none => rfl
  | some k =>
    obtain ⟨l1, _, h1, -, hcap, -, -⟩ := containerParse_eq_some_iff.1 hk
    rw [u64_slice_le64_append] at h1
    omega

/-- Settles O59.  TOK_LEN is the length of the token stream, so ContainerBytes is a frame; the rest is what the parse
does with a frame, a longer input, a shorter one and an L1 above TOK_CAP. -/
theorem containerRoundTrip : Obligations.ContainerRoundTrip := by
  refine ⟨fun s => ?_, fun c extra htok hpay => containerParse_append (containerParse_frame htok hpay) extra,
    fun c n htok hpay hn => containerParse_take_frame (containerParse_frame htok hpay) hn,
    fun v rest h => containerParse_of_tokCap_lt h rest⟩
  rw [containerBytes, frame, State.tokens, Buffer.length_bytes, BitVec.ofNat_toNat, BitVec.setWidth_eq]
  rfl

/-! ### The core's turn (R73, R238) -/

/-- The core takes its turn where one stands first, and where no turn is left. -/
theorem step_of_coreTurn {s : State} {ts : List Turn} (h : s.turns = .core :: ts ∨ (s.turns = [] ∧ ts = [])) :
    step s = coreTurn { s with turns := ts } := by
  unfold step advance
  obtain h | ⟨h, rfl⟩ := h
  · rw [h]
    rfl
  · rw [h]
    exact congrArg coreTurn (by rw [← h])

theorem coreTurn_of_pending {s t : State} {i : Instr} (hbusy : s.busy = true) (hpending : decode s.pending = .command i)
    (hexec : exec i s = .next t) : coreTurn s = .next t.finish := by
  simp only [coreTurn, complete, hbusy, if_true, hpending, hexec]

/-- Settles O16. -/
theorem stepRunsThePendingCommand : Obligations.StepRunsThePendingCommand := by
  intro s t i ts hbusy hpending hturns hexec
  rw [step_of_coreTurn hturns]
  exact coreTurn_of_pending (s := { s with turns := ts }) hbusy hpending hexec

end Sys2Proof.Machine

/-! The statements about encoding (spec/30_encoding.md): the opcode map and the command word placed in a state, the
token-stream grammar against the serializer and DESERIALIZE, and the payload bits DECODE reads. -/

namespace Sys2Proof.Machine

/-! ### The opcode map (R80, R81, R83) -/

theorem decode_encode : ∀ i : Instr, decode (encode i) = .command i
  | .count => Laws.Encoding.count.2
  | .build => Laws.Encoding.build.2
  | .gencodes => Laws.Encoding.gencodes.2
  | .serialize => Laws.Encoding.serialize.2
  | .encode => Laws.Encoding.encode.2
  | .deserialize => Laws.Encoding.deserialize.2
  | .decode => Laws.Encoding.decode.2
  | .compress => Laws.Encoding.compress.2
  | .decompress => Laws.Encoding.decompress.2
  | .clrerr => Laws.Encoding.clrerr.2
  | .srst => Laws.Encoding.srst.2

/-- A word that decodes to a command is selected by one of its rows. -/
theorem exists_row_of_decodeIn {rows : List OpcodeRow} {op : Byte} {i : Instr} (h : decodeIn rows op = .command i) :
    ∃ r ∈ rows, r.selects op = true ∧ r.instr = i := by
  induction rows with
  | nil => cases h
  | cons r rows ih =>
    unfold decodeIn at h
    split at h
    · next hr => cases h; exact ⟨r, List.mem_cons_self, hr, rfl⟩
    · obtain ⟨q, hq, hselects, hi⟩ := ih h
      exact ⟨q, List.mem_cons_of_mem r hq, hselects, hi⟩

/-- Every row compares all eight bits, with the word of its command (R81). -/
theorem opcodeTable_rows : ∀ r ∈ opcodeTable, r.mask = 0xFF ∧ r.pattern = encode r.instr := by
  decide

theorem eq_encode_of_selects {r : OpcodeRow} {op : Byte} (hr : r ∈ opcodeTable) (h : r.selects op = true) :
    op = encode r.instr := by
  obtain ⟨hmask, hpattern⟩ := opcodeTable_rows r hr
  have hword : op &&& 0xFF = encode r.instr := by rw [← hmask, ← hpattern]; exact eq_of_beq h
  rw [← hword]
  exact BitVec.and_allOnes.symm

theorem decode_eq_command_iff (i : Instr) (op : Byte) : decode op = .command i ↔ op = encode i := by
  constructor
  · intro h
    obtain ⟨r, hr, hselects, rfl⟩ := exists_row_of_decodeIn h
    exact eq_encode_of_selects hr hselects
  · rintro rfl
    exact decode_encode i

/-- Settles O12: each word of the map is the encoding of its command. -/
theorem opcodeWordsOfTheMap : Obligations.OpcodeWordsOfTheMap :=
  ⟨decode_encode .count, decode_encode .build, decode_encode .gencodes, decode_encode .serialize,
    decode_encode .encode, decode_encode .deserialize, decode_encode .decode, decode_encode .compress,
    decode_encode .decompress, decode_encode .clrerr, decode_encode .srst⟩

/-- Settles O13. -/
theorem decodeAndEncodeAgree : Obligations.DecodeAndEncodeAgree := decode_eq_command_iff

/-! ### The command word placed in a state (log entries 2, 6) -/

/-- A byte is the table word of eight bits that its value numbers. -/
theorem tableByte_toNat (op : Byte) : tableByte 8 op.toNat = op := by
  rw [tableByte, Nat.mod_eq_of_lt op.isLt, BitVec.ofNat_toNat, BitVec.setWidth_eq]

theorem decodeTableWord_encode (i : Instr) : decodeTableWord 8 (encode i).toNat = some i := by
  simp only [decodeTableWord, tableByte_toNat, decode_encode]

/-- Settles O17: the word placed is accepted, and the turn placed with it is the core's. -/
theorem placedCommandRunsNext : Obligations.PlacedCommandRunsNext := by
  intro s t i hexec
  refine ⟨decodeTableWord_encode i, ?_⟩
  rw [State.withFetchWord, tableByte_toNat, step_of_coreTurn (ts := s.turns) (.inl rfl)]
  exact coreTurn_of_pending (s := s.accept (encode i)) rfl (decode_encode i) hexec

/-! ### The serializer against the grammar (R91 to R93) -/

theorem tokenStream_ser (t : HuffTree) : TokenStream (ser t) t := by
  induction t with
  | leaf x => exact .leaf x
  | node l r hl hr => exact .node fillerByte hl hr

/-- Settles O37. -/
theorem serIsAWellFormedStream : Obligations.SerIsAWellFormedStream :=
  ⟨fun _ => rfl, fun _ _ => rfl, tokenStream_ser⟩

/-- A symbol is below 128, so its byte is no marker and no filler (R90). -/
theorem byteOf_ne_of_le {b : Byte} (hb : 128 ≤ b.toNat) (x : Sym) : byteOf x ≠ b := by
  rintro rfl
  rw [byteOf_toNat] at hb
  omega

/-- How often a byte that is no symbol occurs: OPEN and CLOSE once for every node of the tree, leaf or internal, and the
filler once for every internal node. -/
theorem count_ser {b : Byte} (hb : 128 ≤ b.toNat) (t : HuffTree) :
    (ser t).count b =
      (internalNodes t + (leaves t).length) * [openByte, closeByte].count b +
        internalNodes t * [fillerByte].count b := by
  induction t with
  | leaf x =>
    have hx : byteOf x ≠ b := byteOf_ne_of_le hb x
    simp [ser, internalNodes, leaves, List.count_cons, hx]
  | node l r hl hr =>
    have hpair : [openByte, closeByte].count b = [openByte].count b + [closeByte].count b :=
      List.count_append (l₁ := [openByte]) (l₂ := [closeByte])
    simp only [ser, internalNodes, leaves, List.count_append, List.length_append, hl, hr, hpair]
    ring

/-- The bytes below 0x80 are those of the leaf symbols, left to right. -/
theorem filter_ser (t : HuffTree) : (ser t).filter (fun b => b.toNat < 0x80) = (leaves t).map byteOf := by
  induction t with
  | leaf x =>
    have hx : (byteOf x).toNat < 128 := by rw [byteOf_toNat]; exact x.isLt
    simp [ser, leaves, openByte, closeByte, hx]
  | node l r hl hr =>
    simp [ser, leaves, openByte, closeByte, fillerByte, hl, hr]

/-- Settles O38: N leaves come with N − 1 internal nodes, and a valid tree has 2 to 128 leaves. -/
theorem serLengthAndMarkers : Obligations.SerLengthAndMarkers := by
  intro t
  have hinternal := internalNodes_leaves t
  have hlength := ser_length t
  have hfiller : (ser t).count 0xFF = internalNodes t := by
    simpa [openByte, closeByte, fillerByte] using count_ser (b := 0xFF) (by decide) t
  have hopen : (ser t).count 0x80 = internalNodes t + (leaves t).length := by
    simpa [openByte, closeByte, fillerByte] using count_ser (b := 0x80) (by decide) t
  have hclose : (ser t).count 0x81 = internalNodes t + (leaves t).length := by
    simpa [openByte, closeByte, fillerByte] using count_ser (b := 0x81) (by decide) t
  refine ⟨hlength, by omega, by omega, by omega, filter_ser t, fun hok => ⟨?_, ser_length_le_tokCap hok⟩⟩
  have htwo := two_le_leaves ((treeOk_iff t).1 hok).1
  omega

/-! ### DESERIALIZE on a stream of the grammar (R92, R150 to R154) -/

theorem treeOfTokens_of_tokenStream {bs : List Byte} {t : HuffTree} (h : TokenStream bs t) (hok : treeOk t = true) :
    treeOfTokens bs = some t := by
  have hparse : parse bs.length bs = some (t, []) := by simpa using parse_complete h bs.length le_rfl []
  simp only [treeOfTokens, hparse, hok, if_true]

theorem exec_deserialize_of_tree {s : State} {t : HuffTree} (h : treeOfTokens s.tokens = some t) :
    exec .deserialize s = .next (s.installTree t) := by
  have hresult : deserializeResult s = .ok (s.installTree t) := by simp only [deserializeResult, h]
  exact congrArg (Host.Outcome.next ∘ conclude State.dropTree s) hresult

/-- Settles O40: the parser reads every stream of the grammar to its end. -/
theorem deserializeAcceptsTheGrammar : Obligations.DeserializeAcceptsTheGrammar :=
  fun _ _ hstream hok => exec_deserialize_of_tree (treeOfTokens_of_tokenStream hstream hok)

/-- Settles O42: from the longer stream the parser reads the tree of the shorter one with the rest left over, and its
own tree with nothing left over. -/
theorem tokenStreamsAreSelfDelimiting : Obligations.TokenStreamsAreSelfDelimiting := by
  rintro b _ t u hb hc ⟨rest, rfl⟩
  have hshorter := parse_complete hb (b ++ rest).length (by simp) rest
  have hlonger := parse_complete hc (b ++ rest).length le_rfl []
  rw [List.append_nil, hshorter] at hlonger
  cases hlonger
  exact ⟨(List.append_nil b).symm, rfl⟩

/-! ### The payload bits DECODE reads (R96, R176, R182) -/

theorem State.payloadBits_with_pay {s : State} {pay : Buffer}
    (h : ∀ i, i < s.bitLen.toNat → streamBit pay i = streamBit s.pay i) :
    State.payloadBits { s with pay } = s.payloadBits :=
  List.map_congr_left fun i hi => h i (List.mem_range.1 hi)

/-- DECODE reads PAY through its payload bits alone, and leaves it as it is. -/
theorem decodeResult_with_pay {s : State} {pay : Buffer} (h : State.payloadBits { s with pay } = s.payloadBits) :
    decodeResult { s with pay } = (decodeResult s).map fun t => { t with pay } := by
  unfold decodeResult
  rw [h]
  dsimp only
  split
  · split
    · rfl
    · cases decodeBits s.tree s.caps.outCap s.payloadBits s.tree true 0 <;> rfl
  · rfl

/-- Settles O48: the two commands end alike, and neither the failure rule nor the error recorded touches PAY. -/
theorem decodeNeverExaminesPadding : Obligations.DecodeNeverExaminesPadding := by
  intro s t pay hpay h
  have hresult := decodeResult_with_pay (State.payloadBits_with_pay hpay)
  have hdecode : conclude State.dropOut { s with pay } (decodeResult { s with pay }) = { t with pay } := by
    obtain hr | ⟨e, hr, rfl⟩ := conclude_next h
    · rw [hresult, hr]; rfl
    · rw [hresult, hr]; rfl
  exact congrArg Host.Outcome.next hdecode

end Sys2Proof.Machine

/-! The statements about the FrequencyCounter (spec/40_frequency_counter.md): COUNT on a source of symbols, and on a
source with a byte of 128 or more. -/

namespace Sys2Proof.Machine

/-- The entries of a table that counts a source sum to its length (R114). -/
theorem CountsOf.sum_toNat_eq {cnt : Vector Word 128} {xs : List Sym} (h : CountsOf cnt xs) :
    ∑ x : Sym, cnt[x].toNat = xs.length := by
  rw [← h.weightSum_eq, weightSum, ← List.ofFn_eq_map, List.sum_ofFn]

theorem State.length_of_source {s : State} {xs : List Sym} (h : s.source = xs.map byteOf) :
    xs.length = s.srcLen.toNat := by
  rw [← State.source_length, h, List.length_map]

theorem exec_count_of_countsOf {s : State} {xs : List Sym} {cnt : Vector Word 128} (hsource : s.source = xs.map byteOf)
    (h : CountsOf cnt xs) : exec .count s = .next { s with cnt } :=
  congrArg (Host.Outcome.next ∘ conclude State.zeroCnt s) (countResult_of_countsOf hsource h)

/-- One byte out of range anywhere in the source makes the stage raise (R112). -/
theorem countResult_of_outOfRange {s : State} {b : Byte} (hmem : b ∈ s.source) (hb : 128 ≤ b.toNat) :
    countResult s = .error .symbolRange := by
  unfold countResult
  rw [tally_none s.source zeroCounts b hmem hb]

/-- Settles O28.  SRC_LEN is a 64-bit word, so the source is short enough for no count to wrap. -/
theorem countTalliesEverySymbol : Obligations.CountTalliesEverySymbol := by
  intro s xs hsource
  have hlen : xs.length = s.srcLen.toNat := State.length_of_source hsource
  obtain ⟨cnt, hcounts⟩ := exists_countsOf (hlen.trans_lt s.srcLen.isLt)
  exact ⟨{ s with cnt }, exec_count_of_countsOf hsource hcounts, hcounts, hcounts.sum_toNat_eq.trans hlen, rfl⟩

/-- Settles O29: the stage raises, so its failure rule clears the counts. -/
theorem countRejectsBytesOutOfRange : Obligations.CountRejectsBytesOutOfRange :=
  fun s _ hmem hb =>
    congrArg (Host.Outcome.next ∘ conclude State.zeroCnt s) (countResult_of_outOfRange hmem hb)

end Sys2Proof.Machine

/-! The statements about the TreeBuilder (spec/41_tree_builder.md): `extractMin`, the merge loop, the tree BUILD stores
and the errors it raises.

The loop's order is total because no two entries of the queue share a sequence number: symbols number the leaves, and
the `k`-th merge gets `128 + k`, above every number in use (R127).  `FreshQueue` is that invariant. -/

namespace Sys2Proof.Machine

/-! ### The least entry -/

/-- Settles O30: the entries are split without loss, and none precedes the one taken. -/
theorem extractMinTakesTheLeastEntry : Obligations.ExtractMinTakesTheLeastEntry := by
  intro x xs
  have hperm := extractMin_perm x xs
  exact ⟨hperm, fun e he => not_precedes_extractMin x xs e (hperm.subset (List.mem_cons_of_mem _ he))⟩

/-- Of two entries with different sequence numbers one precedes the other. -/
theorem precedes_of_not_precedes {a e : QEntry} (hseq : a.seq ≠ e.seq) (h : ¬ Precedes e a) : Precedes a e := by
  unfold Precedes at *
  omega

/-! ### Sequence numbers stay distinct -/

/-- The queue before the `k`-th merge: no sequence number stands twice, and none is that of a merge to come (R127). -/
structure FreshQueue (k : Nat) (q : List QEntry) : Prop where
  distinct : (q.map QEntry.seq).Nodup
  below : ∀ e ∈ q, e.seq < 128 + k

theorem FreshQueue.perm {k : Nat} {p q : List QEntry} (h : FreshQueue k p) (hpq : p.Perm q) : FreshQueue k q :=
  ⟨(hpq.map QEntry.seq).nodup_iff.1 h.distinct, fun e he => h.below e (hpq.mem_iff.2 he)⟩

theorem FreshQueue.tail {k : Nat} {a : QEntry} {q : List QEntry} (h : FreshQueue k (a :: q)) : FreshQueue k q :=
  ⟨(List.nodup_cons.1 h.distinct).2, (List.forall_mem_cons.1 h.below).2⟩

/-- In a queue with distinct sequence numbers an entry that none precedes, precedes all the others. -/
theorem FreshQueue.precedes {k : Nat} {a : QEntry} {q : List QEntry} (h : FreshQueue k (a :: q))
    (hleast : ∀ e ∈ q, ¬ Precedes e a) : ∀ e ∈ q, Precedes a e := by
  intro e he
  have hseq : a.seq ≠ e.seq := fun heq =>
    (List.nodup_cons.1 h.distinct).1 (heq ▸ List.mem_map_of_mem he)
  exact precedes_of_not_precedes hseq (hleast e he)

/-- The merged entry takes the next sequence number, which is above all the others (R127). -/
theorem FreshQueue.merge {k : Nat} {a b : QEntry} {rest : List QEntry} (h : FreshQueue k (a :: b :: rest)) :
    FreshQueue (k + 1) (mergeEntries k a b :: rest) := by
  obtain ⟨hdistinct, hbelow⟩ := h.tail.tail
  refine ⟨List.nodup_cons.2 ⟨fun hmem => ?_, hdistinct⟩, List.forall_mem_cons.2 ⟨?_, fun e he => ?_⟩⟩
  · obtain ⟨e, he, hseq⟩ := List.mem_map.1 hmem
    exact (hbelow e he).ne hseq
  · exact Nat.lt_succ_self _
  · exact (hbelow e he).trans (Nat.lt_succ_self _)

/-- The leaves are numbered by their symbols, which are distinct and below 128 (R121). -/
theorem freshQueue_initialQueue (cnt : Vector Word 128) : FreshQueue 0 (initialQueue cnt) := by
  rw [initialQueue_eq_map]
  refine ⟨?_, List.forall_mem_map.2 fun x _ => x.isLt⟩
  rw [List.map_map]
  exact (presentSymbols_nodup cnt).map Fin.val_injective

/-! ### The merge loop (R121, R126) -/

/-- One pass of the loop: it takes the least entry, then the least of the others, and puts back their merge. -/
theorem mergeLoop_pass (fuel k : Nat) (x y : QEntry) (ys : List QEntry) :
    ∃ a b rest, (a :: b :: rest).Perm (x :: y :: ys) ∧
      (∀ e ∈ b :: rest, ¬ Precedes e a) ∧ (∀ e ∈ rest, ¬ Precedes e b) ∧
      mergeLoop (fuel + 1) k x (y :: ys) = mergeLoop fuel (k + 1) (mergeEntries k a b) rest := by
  obtain ⟨hperm, hleast⟩ := extractMinTakesTheLeastEntry x (y :: ys)
  rcases hfirst : extractMin x (y :: ys) with ⟨a, _ | ⟨z, zs⟩⟩
  · rw [hfirst] at hperm
    simpa using hperm.length_eq
  · rw [hfirst] at hperm hleast
    obtain ⟨hperm', hleast'⟩ := extractMinTakesTheLeastEntry z zs
    rcases hsecond : extractMin z zs with ⟨b, rest⟩
    rw [hsecond] at hperm' hleast'
    refine ⟨a, b, rest, (hperm'.cons a).trans hperm, fun e he => hleast e (hperm'.subset he), hleast', ?_⟩
    simp only [mergeLoop, hfirst, hsecond]

/-- On a queue with distinct sequence numbers the loop makes the merges that R127 asks for. -/
theorem mergesTo_mergeLoop {fuel k : Nat} {x : QEntry} {xs : List QEntry} (hq : FreshQueue k (x :: xs))
    (hf : xs.length ≤ fuel) : MergesTo k (↑(x :: xs) : Multiset QEntry) (mergeLoop fuel k x xs) := by
  induction fuel generalizing k x xs with
  | zero =>
    obtain rfl : xs = [] := List.eq_nil_of_length_eq_zero (Nat.le_zero.1 hf)
    exact .root k x
  | succ fuel ih =>
    cases xs with
    | nil => exact .root k x
    | cons y ys =>
      obtain ⟨a, b, rest, hperm, ha, hb, hloop⟩ := mergeLoop_pass fuel k x y ys
      have hab : FreshQueue k (a :: b :: rest) := hq.perm hperm.symm
      have hlen : rest.length ≤ fuel := by
        have := hperm.length_eq
        simp only [List.length_cons] at this hf
        omega
      rw [hloop, ← Multiset.coe_eq_coe.2 hperm]
      exact .merge (rest := ↑rest) (hab.precedes ha) (hab.tail.precedes hb) (ih hab.merge hlen)

/-! ### BUILD succeeds -/

theorem weightSum_eq_sum (cnt : Vector Word 128) : weightSum cnt = ∑ x : Sym, cnt[x].toNat := by
  rw [weightSum, ← List.ofFn_eq_map, List.sum_ofFn]

/-- With two symbols or more, whose weights sum to less than 2^64, BUILD makes the tree of the merge loop. -/
theorem exists_buildTree_mergesTo {cnt : Vector Word 128} (htwo : 2 ≤ (presentSymbols cnt).length)
    (hsum : ∑ x : Sym, cnt[x].toNat < 2 ^ 64) : ∃ tr, buildTree cnt = .ok tr ∧ MergesTo 0 (startQueue cnt) tr := by
  rw [← weightSum_eq_sum] at hsum
  obtain ⟨x, xs, hq, hbuild⟩ := buildTree_runs_mergeLoop htwo hsum
  have hfresh := freshQueue_initialQueue cnt
  rw [hq] at hfresh
  refine ⟨_, hbuild, ?_⟩
  rw [startQueue_eq, hq]
  exact mergesTo_mergeLoop hfresh (Nat.le_succ _)

theorem exec_build_of_tree {s : State} {tr : HuffTree} (h : buildTree s.cnt = .ok tr) :
    exec .build s = .next (s.installTree tr) := by
  have hresult : buildResult s = .ok (s.installTree tr) := by simp only [buildResult, h]
  exact congrArg (Host.Outcome.next ∘ conclude State.dropTree s) hresult

/-- Settles O31: the loop's queue starts with distinct sequence numbers, so its tree is the one R127 describes. -/
theorem buildRunsTheMergeLoop : Obligations.BuildRunsTheMergeLoop := by
  intro s htwo hsum
  obtain ⟨tr, htree, hmerges⟩ := exists_buildTree_mergesTo htwo hsum
  exact ⟨s.installTree tr, exec_build_of_tree htree, hmerges, rfl⟩

/-- Settles O32: the loop keeps the leaves of its queue, and N leaves come with N − 1 internal nodes. -/
theorem builtTreeHasThePresentSymbols : Obligations.BuiltTreeHasThePresentSymbols := by
  intro s t htwo hsum hexec
  obtain ⟨tr, htree, _⟩ := exists_buildTree_mergesTo htwo hsum
  obtain rfl : s.installTree tr = t := by
    rw [exec_build_of_tree htree] at hexec
    exact Host.Outcome.next.inj hexec
  obtain ⟨_, hleaves⟩ := buildTree_ok htree
  have hinternal : internalNodes tr = (presentSymbols s.cnt).length - 1 := by
    rw [← hleaves.length_eq, ← internalNodes_leaves]
    rfl
  exact ⟨hleaves, hinternal, treeOk_of_buildTree htree, rfl⟩

/-! ### BUILD fails (R123 to R125, R129) -/

theorem losesTree_of_buildTree {s : State} {e : ErrKind} (h : buildTree s.cnt = .error e) :
    LosesTree .build s e := by
  have hresult : buildResult s = .error e := by simp only [buildResult, h]
  exact ⟨s.dropTree.setErr e, congrArg (Host.Outcome.next ∘ conclude State.dropTree s) hresult, rfl⟩

section
variable {cnt : Vector Word 128}

theorem buildTree_of_no_symbol (h : presentSymbols cnt = []) : buildTree cnt = .error .emptyInput := by
  simp only [buildTree, initialQueue_eq_map, h, List.map_nil]

theorem buildTree_of_one_symbol {y : Sym} (h : presentSymbols cnt = [y]) : buildTree cnt = .error .singleSymbol := by
  simp only [buildTree, initialQueue_eq_map, h, List.map_cons, List.map_nil]

theorem buildTree_of_sum_too_large {x y : Sym} {xs : List Sym} (h : presentSymbols cnt = x :: y :: xs)
    (hsum : 2 ^ 64 ≤ weightSum cnt) : buildTree cnt = .error .capacity := by
  simp only [buildTree, initialQueue_eq_map, h, List.map_cons, if_pos hsum]

theorem presentSymbols_eq_nil (h : ∀ x : Sym, cnt[x] = 0) : presentSymbols cnt = [] :=
  List.eq_nil_iff_forall_not_mem.2 fun x hx => mem_presentSymbols.1 hx (h x)

/-- Exactly one symbol is present, whatever its weight. -/
theorem presentSymbols_eq_singleton {y : Sym} (hy : cnt[y] ≠ 0) (h : ∀ x : Sym, x ≠ y → cnt[x] = 0) :
    presentSymbols cnt = [y] := by
  have hmem : ∀ x, x ∈ presentSymbols cnt ↔ x ∈ [y] := fun x => by
    rw [mem_presentSymbols, List.mem_singleton]
    exact ⟨not_imp_comm.1 (h x), fun hx => hx ▸ hy⟩
  exact List.perm_singleton.1
    ((List.perm_ext_iff_of_nodup (presentSymbols_nodup cnt) (List.nodup_singleton y)).2 hmem)

/-- Two different symbols are present, so the list of them has at least two entries. -/
theorem presentSymbols_eq_cons_cons {x y : Sym} (hxy : x ≠ y) (hx : cnt[x] ≠ 0) (hy : cnt[y] ≠ 0) :
    ∃ a b xs, presentSymbols cnt = a :: b :: xs := by
  have hx := mem_presentSymbols.2 hx
  have hy := mem_presentSymbols.2 hy
  match hq : presentSymbols cnt with
  | [] => simp [hq] at hx
  | [a] =>
    rw [hq, List.mem_singleton] at hx hy
    exact absurd (hx.trans hy.symm) hxy
  | a :: b :: xs => exact ⟨a, b, xs, rfl⟩

end

/-- Settles O33: the number of present symbols selects the error, before the sum is looked at. -/
theorem buildErrors : Obligations.BuildErrors := by
  refine fun s => ⟨fun hzero => ?_, fun y hy hothers => ?_, fun x y hxy hx hy hsum => ?_⟩
  · exact losesTree_of_buildTree (buildTree_of_no_symbol (presentSymbols_eq_nil hzero))
  · exact losesTree_of_buildTree (buildTree_of_one_symbol (presentSymbols_eq_singleton hy hothers))
  · obtain ⟨a, b, xs, hpresent⟩ := presentSymbols_eq_cons_cons hxy hx hy
    rw [← weightSum_eq_sum] at hsum
    exact losesTree_of_buildTree (buildTree_of_sum_too_large hpresent hsum)

end Sys2Proof.Machine

/-! The statements about the CodeTableGenerator (spec/42_code_table_generator.md): the table GENCODES writes for a valid
tree, that it is prefix-free, and the SequenceError GENCODES and SERIALIZE raise without one. -/

namespace Sys2Proof.Machine

/-! ### GENCODES with a tree -/

theorem exec_gencodes_of_valid {s : State} (h : s.treeValid = true) :
    exec .gencodes s = .next { s with code := codesOf s.tree } :=
  congrArg (Host.Outcome.next ∘ conclude State.clearCodes s) (gencodesResult_of_valid h)

/-- The field BITS of an entry holds the code from bit 127 down (R97). -/
theorem entryOfBits_getLsbD {p : List Bool} (hp : p.length ≤ 127) {j : Nat} (hj : j < p.length) :
    (entryOfBits p).bits.getLsbD (127 - j) = p[j] := by
  have hbit : (leftAlign p).getLsbD (127 - j) = (p[j]?).getD false := leftAlign_bit p j (by omega)
  rwa [List.getElem?_eq_getElem hj, Option.getD_some] at hbit

/-- Settles O34: the entry of a leaf symbol is that of its path, which has at most 127 bits and so fits the field. -/
theorem gencodesGivesEveryLeafItsPath : Obligations.GencodesGivesEveryLeafItsPath := by
  refine fun s hv hok =>
    ⟨{ s with code := codesOf s.tree }, exec_gencodes_of_valid hv, rfl, fun p x hpath => ?_,
      fun x hx => codesOf_of_not_mem hx⟩
  have hlen := pathTo_length_le_127 hok hpath
  simp only [codesOf_of_pathTo hok hpath]
  exact ⟨entryOfBits_len p (by omega), fun _ hj => entryOfBits_getLsbD hlen hj, entryOfBits_low p⟩

/-! ### The table is prefix-free (R138) -/

/-- A path that continues another path ends at the same leaf: no step leads on from a leaf. -/
theorem PathTo.eq_of_prefix {t : HuffTree} {p q : List Bool} {x y : Sym} (hp : PathTo t p x) (hq : PathTo t q y)
    (h : p <+: q) : x = y := by
  induction hp generalizing q with
  | leaf x => cases hq; rfl
  | left _ ih =>
    cases hq with
    | left hq => exact ih hq (List.cons_prefix_cons.1 h).2
    | right _ => cases (List.cons_prefix_cons.1 h).1
  | right _ ih =>
    cases hq with
    | left _ => cases (List.cons_prefix_cons.1 h).1
    | right hq => exact ih hq (List.cons_prefix_cons.1 h).2

/-- Settles O35.  The table is the code table of R30, so lengths and prefixes of codes are those of paths. -/
theorem codeTableIsPrefixFree : Obligations.CodeTableIsPrefixFree := by
  intro s t hv hok hexec
  obtain rfl : { s with code := codesOf s.tree } = t := by
    rw [exec_gencodes_of_valid hv] at hexec
    exact Host.Outcome.next.inj hexec
  have hpaths := (isCodeTableOf_codesOf hok).1
  refine ⟨fun x hx => ?_, fun x hx => ?_, fun x hx y hy hxy hprefix => hxy ?_⟩
  · obtain ⟨p, hp⟩ := mem_leaves_iff_pathTo.1 hx
    rw [(hpaths p x hp).1]
    exact ⟨pathTo_length_pos ((treeOk_iff s.tree).1 hok).1 hp, pathTo_length_le_127 hok hp⟩
  · simp only [codesOf_of_not_mem hx, and_self]
  · obtain ⟨p, hp⟩ := mem_leaves_iff_pathTo.1 hx
    obtain ⟨q, hq⟩ := mem_leaves_iff_pathTo.1 hy
    rw [(hpaths p x hp).2, (hpaths q y hq).2] at hprefix
    exact hp.eq_of_prefix hq hprefix

/-! ### GENCODES and SERIALIZE without a tree (R139, R146) -/

theorem exec_gencodes_of_invalid {s : State} (h : s.treeValid = false) :
    exec .gencodes s = .next (s.clearCodes.setErr .sequence) :=
  congrArg (Host.Outcome.next ∘ conclude State.clearCodes s) (gencodesResult_of_invalid h)

theorem exec_serialize_of_invalid {s : State} (h : s.treeValid = false) :
    exec .serialize s = .next (s.dropTok.setErr .sequence) :=
  congrArg (Host.Outcome.next ∘ conclude State.dropTok s) (serializeResult_of_invalid h)

/-- Settles O36: both raise SequenceError, each with its own failure rule. -/
theorem commandsThatNeedATreeRaiseSequence : Obligations.CommandsThatNeedATreeRaiseSequence :=
  fun s h => ⟨exec_gencodes_of_invalid h, s.dropTok.setErr .sequence, exec_serialize_of_invalid h, rfl⟩

end Sys2Proof.Machine

/-! The statements about the TreeSerializer and TreeDeserializer (spec/43_tree_serializer.md): what SERIALIZE writes,
which streams DESERIALIZE rejects, and the round trips in both orders. -/

namespace Sys2Proof.Machine

/-! ### SERIALIZE with a tree (R145) -/

theorem exec_serialize_of_valid {s : State} (h : s.treeValid = true) :
    exec .serialize s = .next (s.writeTok (ser s.tree)) :=
  congrArg (Host.Outcome.next ∘ conclude State.dropTok s) (serializeResult_of_valid h)

/-- The token stream of a valid tree has at most 765 bytes, so TOK_LEN does not wrap. -/
theorem ser_length_lt_two_pow_64 {t : HuffTree} (h : treeOk t = true) : (ser t).length < 2 ^ 64 :=
  (ser_length_le_tokCap h).trans_lt (by decide)

/-- Settles O39: six bytes for every leaf but for the root's three, and at most 128 leaves. -/
theorem serializeWritesTheTokenStream : Obligations.SerializeWritesTheTokenStream := by
  intro s hv hok
  have htok := ser_length_lt_two_pow_64 hok
  have htokLen : (s.writeTok (ser s.tree)).tokLen.toNat = (ser s.tree).length := toNat_ofNat64 htok
  refine ⟨_, exec_serialize_of_valid hv, State.tokens_writeTok s htok, ?_, ?_, rfl⟩ <;> rw [htokLen]
  · exact Nat.eq_sub_of_add_eq (ser_length s.tree)
  · exact ser_length_le_tokCap hok

/-! ### DESERIALIZE rejects every stream outside the grammar (R152 to R154, R156) -/

/-- DESERIALIZE accepts only a whole stream of the grammar: the parser is sound, and it must leave no byte (R152). -/
theorem tokenStream_of_treeOfTokens {bs : List Byte} {t : HuffTree} (h : treeOfTokens bs = some t) :
    TokenStream bs t := by
  unfold treeOfTokens at h
  split at h
  · next hparse =>
    obtain ⟨b, hbs, hstream⟩ := parse_sound _ _ _ _ hparse
    rw [List.append_nil] at hbs
    split at h
    · cases h; exact hbs ▸ hstream
    · cases h
  · cases h

theorem losesTree_of_treeOfTokens {s : State} (h : treeOfTokens s.tokens = none) :
    LosesTree .deserialize s .invalidFormat := by
  have hresult : deserializeResult s = .error .invalidFormat := by simp only [deserializeResult, h]
  exact ⟨s.dropTree.setErr .invalidFormat, congrArg (Host.Outcome.next ∘ conclude State.dropTree s) hresult, rfl⟩

/-- Settles O41: a tree found would be valid and denoted by the stream. -/
theorem deserializeRejectsEverythingElse : Obligations.DeserializeRejectsEverythingElse := by
  intro s hreject
  refine losesTree_of_treeOfTokens (Option.eq_none_iff_forall_ne_some.2 fun t ht => ?_)
  have hinvalid := hreject t (tokenStream_of_treeOfTokens ht)
  rw [treeOk_of_treeOfTokens ht] at hinvalid
  cases hinvalid

/-! ### Round trips (R158) -/

/-- Installing the tree that is valid already only clears the codes. -/
theorem State.installTree_own_tree {s : State} (h : s.treeValid = true) :
    s.installTree s.tree = { s with code := absentCodes } := by
  rw [State.installTree, ← h]

/-- A byte the serializer writes where the stream had `b`: the same byte, or the filler. -/
def KeepsOrFills (a b : Byte) : Prop := a = b ∨ a = fillerByte

/-- `Ser` of the tree a stream denotes is that stream with its filler bytes replaced by 0xFF (R158). -/
theorem ser_keepsOrFills {bs : List Byte} {t : HuffTree} (h : TokenStream bs t) :
    List.Forall₂ KeepsOrFills (ser t) bs := by
  have hkept (b : Byte) : List.Forall₂ KeepsOrFills [b] [b] := .cons (.inl rfl) .nil
  induction h with
  | leaf x => exact .cons (.inl rfl) (.cons (.inl rfl) (hkept _))
  | node filler _ _ hl hr =>
    have hfiller : List.Forall₂ KeepsOrFills [fillerByte] [filler] := .cons (.inr rfl) .nil
    exact List.rel_append (List.rel_append (List.rel_append (List.rel_append (hkept _) hl) hfiller) hr) (hkept _)

theorem getElem?_of_keepsOrFills {as bs : List Byte} (h : List.Forall₂ KeepsOrFills as bs) (i : Nat) :
    as[i]? = bs[i]? ∨ as[i]? = some fillerByte := by
  induction h generalizing i with
  | nil => exact .inl rfl
  | cons hab _ ih =>
    cases i with
    | zero => exact hab.imp (congrArg some) (congrArg some)
    | succ i => exact ih i

/-- Settles O43: `Ser` of the tree is a stream of the grammar, which DESERIALIZE accepts; and SERIALIZE after an
accepted stream writes `Ser` of its tree. -/
theorem serializeAndDeserializeRoundTrip : Obligations.SerializeAndDeserializeRoundTrip := by
  constructor
  · intro s hv hok
    have htree : treeOfTokens (s.writeTok (ser s.tree)).tokens = some s.tree := by
      rw [State.tokens_writeTok s (ser_length_lt_two_pow_64 hok)]
      exact treeOfTokens_of_tokenStream (tokenStream_ser s.tree) hok
    refine ⟨s.writeTok (ser s.tree), exec_serialize_of_valid hv, ?_, rfl, hv⟩
    rw [exec_deserialize_of_tree htree]
    exact congrArg Host.Outcome.next (State.installTree_own_tree hv)
  · intro s tr hstream hok
    have htokens : ((s.installTree tr).writeTok (ser tr)).tokens = ser tr :=
      State.tokens_writeTok _ (ser_length_lt_two_pow_64 hok)
    have hkeeps := ser_keepsOrFills hstream
    refine ⟨s.installTree tr, (s.installTree tr).writeTok (ser tr), deserializeAcceptsTheGrammar s tr hstream hok,
      exec_serialize_of_valid rfl, htokens, ?_⟩
    rw [htokens]
    exact ⟨hkeeps.length_eq, getElem?_of_keepsOrFills hkeeps⟩

end Sys2Proof.Machine

/-! The statement about the BitPacker (spec/44_bit_packer.md): the first source byte at which a check of ENCODE fails
decides the error. -/

namespace Sys2Proof.Machine

/-! ### ENCODE at a source byte that fails a check (R167, R168) -/

section
variable {code : Vector CodeEntry 128} {cap n : Nat}

/-- A byte is unknown when it is no symbol, or a symbol whose entry is absent (R167). -/
theorem presentEntry_eq_none {b : Byte} (h : 128 ≤ b.toNat ∨ ∃ x, b = byteOf x ∧ code[x].len = 0) :
    presentEntry code b = none := by
  obtain hb | ⟨x, rfl, hx⟩ := h
  · simp only [presentEntry, symOf_none.2 hb]
  · have habsent : entryAbsent code[x] = true := beq_iff_eq.2 hx
    simp only [presentEntry, symOf_byteOf, habsent, if_true]

theorem encodeBits_cons_of_unknown {b : Byte} (rest : List Byte) (h : presentEntry code b = none) :
    encodeBits code cap (b :: rest) n = .error .unknownSymbol := by
  simp only [encodeBits, h]

theorem encodeBits_cons_of_overflow {b : Byte} {e : CodeEntry} (rest : List Byte) (h : presentEntry code b = some e)
    (hcap : cap < ceil8 (n + e.len.toNat)) : encodeBits code cap (b :: rest) n = .error .capacity := by
  simp only [encodeBits, h, if_pos hcap]

/-- Symbols that pass both checks only move the position, so what ENCODE raises on the bytes after them it raises on
the whole. -/
theorem encodeBits_append_error {xs : List Sym} {bs : List Byte} {e : ErrKind} (hcodes : ∀ x ∈ xs, code[x].len ≠ 0)
    (hfit : ceil8 (n + codeLength code xs) ≤ cap) (h : encodeBits code cap bs (n + codeLength code xs) = .error e) :
    encodeBits code cap (xs.map byteOf ++ bs) n = .error e := by
  induction xs generalizing n with
  | nil => exact h
  | cons x xs ih =>
    obtain ⟨hx, hxs⟩ := List.forall_mem_cons.1 hcodes
    rw [codeLength_cons, ← Nat.add_assoc] at hfit h
    have hfirst : ¬ cap < ceil8 (n + code[x].len.toNat) :=
      Nat.not_lt.2 ((ceil8_mono (Nat.le_add_right _ _)).trans hfit)
    simp only [List.map_cons, List.cons_append, encodeBits, presentEntry_byteOf hx, if_neg hfirst, ih hxs hfit h]

end

/-- ENCODE's failure rule (R169). -/
theorem losesPayload_of_encodeBits {s : State} {e : ErrKind}
    (h : encodeBits s.code s.caps.payCap s.source 0 = .error e) : LosesPayload s e := by
  have hresult : encodeResult s = .error e := by simp only [encodeResult, h]
  exact ⟨s.dropPay.setErr e, congrArg (Host.Outcome.next ∘ conclude State.dropPay s) hresult, rfl⟩

/-- Settles O45: the symbols before the byte pass both checks, and at the byte the unknown-symbol check comes first. -/
theorem encodeRaisesAtTheFirstFailingByte : Obligations.EncodeRaisesAtTheFirstFailingByte := by
  intro s xs b rest hsource hcodes hfit
  have hloses {e : ErrKind} (h : encodeBits s.code s.caps.payCap (b :: rest) (0 + codeLength s.code xs) = .error e) :
      LosesPayload s e :=
    losesPayload_of_encodeBits (hsource ▸ encodeBits_append_error hcodes (by rwa [Nat.zero_add]) h)
  constructor
  · intro hunknown
    exact hloses (encodeBits_cons_of_unknown rest (presentEntry_eq_none hunknown))
  · rintro x rfl hx hcap
    exact hloses (encodeBits_cons_of_overflow rest (presentEntry_byteOf hx) (by rwa [Nat.zero_add]))

end Sys2Proof.Machine

/-! The statements about the BitUnpacker (spec/45_bit_unpacker.md): what DECODE emits, when it raises each error, and the
round trips through ENCODE and through COMPRESS.

The tree walk is described by where it starts: along a whole path it emits one symbol and is back at the root
(`decodeBits_path`), so along coded bits it emits their symbols (`decodeBits_coded`), and what remains of the payload
decides how DECODE ends. -/

namespace Sys2Proof.Machine

/-! ### One step of the tree walk (R175) -/

section
variable {root cur : HuffTree} {cap m : Nat} {atRoot bit : Bool} {bits : List Bool}

/-- A bit that leads to a leaf emits its symbol, if OUT has room, and the walk goes on at the root (R175, R178). -/
theorem decodeBits_cons_of_leaf {x : Sym} (h : child bit cur = .leaf x) :
    decodeBits root cap (bit :: bits) cur atRoot m =
      if cap ≤ m then .error .capacity else (decodeBits root cap bits root true (m + 1)).map (x :: ·) := by
  simp only [decodeBits, h]
  cases decodeBits root cap bits root true (m + 1) <;> rfl

/-- A bit that leads to an internal node moves the cursor there. -/
theorem decodeBits_cons_of_node (h : isNode (child bit cur) = true) :
    decodeBits root cap (bit :: bits) cur atRoot m = decodeBits root cap bits (child bit cur) false m := by
  obtain ⟨l, r, hchild⟩ := exists_node_of_isNode h
  simp only [decodeBits, hchild]

end

/-- A path from an internal node goes on, below the child its first bit selects, as a path of that child (R136). -/
theorem PathTo.of_cons {t : HuffTree} {bit : Bool} {p : List Bool} {x : Sym} (h : PathTo t (bit :: p) x) :
    PathTo (child bit t) p x := by
  cases h with
  | left h => exact h
  | right h => exact h

theorem Inside.isNode {t : HuffTree} {p : List Bool} (h : Inside t p) : isNode t = true := by
  cases h <;> rfl

/-! ### The tree walk along paths -/

section
variable {root : HuffTree} {cap m : Nat}

/-- Along the path of a symbol the walk emits that symbol alone, if OUT has room. -/
theorem decodeBits_path {cur : HuffTree} {p rest : List Bool} {x : Sym} {atRoot : Bool} (hnode : isNode cur = true)
    (h : PathTo cur p x) :
    decodeBits root cap (p ++ rest) cur atRoot m =
      if cap ≤ m then .error .capacity else (decodeBits root cap rest root true (m + 1)).map (x :: ·) := by
  induction p generalizing cur atRoot with
  | nil => exact absurd (pathTo_length_pos hnode h) (Nat.lt_irrefl 0)
  | cons bit p ih =>
    have hbelow := h.of_cons
    cases hchild : child bit cur with
    | leaf y =>
      rw [hchild] at hbelow
      cases hbelow
      exact decodeBits_cons_of_leaf hchild
    | node l r =>
      have hnode : isNode (child bit cur) = true := by rw [hchild]; rfl
      rw [List.cons_append, decodeBits_cons_of_node hnode, ih hnode hbelow]

/-- Along coded bits whose symbols fit OUT the walk emits those symbols and is back at the root. -/
theorem decodeBits_coded {bits rest : List Bool} {xs : List Sym} (hnode : isNode root = true)
    (h : Coded root bits xs) (hfit : m + xs.length ≤ cap) :
    decodeBits root cap (bits ++ rest) root true m =
      (decodeBits root cap rest root true (m + xs.length)).map (xs ++ ·) := by
  induction h generalizing m with
  | nil => cases hrest : decodeBits root cap rest root true m <;> simp [hrest, Except.map]
  | @cons p bits x xs hp _ ih =>
    have hemitted : m + 1 + xs.length = m + (x :: xs).length := by rw [List.length_cons]; omega
    rw [← hemitted] at hfit
    have hroom : ¬ cap ≤ m := by omega
    rw [List.append_assoc, decodeBits_path hnode hp, if_neg hroom, ih hfit, hemitted]
    cases decodeBits root cap rest root true (m + (x :: xs).length) <;> rfl

/-- Bits that end inside the tree, below the root, are an invalid payload (R177). -/
theorem decodeBits_inside {cur : HuffTree} {cut : List Bool} {atRoot : Bool} (h : Inside cur cut)
    (hbelow : cut = [] → atRoot = false) : decodeBits root cap cut cur atRoot m = .error .invalidFormat := by
  induction h generalizing atRoot with
  | here l r => rw [hbelow rfl]; rfl
  | @left l r _ h ih =>
    exact (decodeBits_cons_of_node (cur := .node l r) (bit := false) h.isNode).trans (ih fun _ => rfl)
  | @right l r _ h ih =>
    exact (decodeBits_cons_of_node (cur := .node l r) (bit := true) h.isNode).trans (ih fun _ => rfl)

end

/-! ### DECODE -/

section
variable {s : State}

theorem decodeResult_of_invalid (h : s.treeValid = false) : decodeResult s = .error .sequence :=
  if_neg (by simp [h])

theorem decodeResult_of_short (hv : s.treeValid = true) (h : s.payLen.toNat < ceil8 s.bitLen.toNat) :
    decodeResult s = .error .invalidFormat :=
  (if_pos hv).trans (if_pos h)

/-- With a tree and a payload long enough DECODE is the tree walk from the root (R175). -/
theorem decodeResult_of_payload (hv : s.treeValid = true) (hlen : ceil8 s.bitLen.toNat ≤ s.payLen.toNat) :
    decodeResult s =
      (decodeBits s.tree s.caps.outCap s.payloadBits s.tree true 0).map fun xs => s.writeOut (xs.map byteOf) := by
  simp only [decodeResult, if_pos hv, if_neg (Nat.not_lt.2 hlen)]
  cases decodeBits s.tree s.caps.outCap s.payloadBits s.tree true 0 <;> rfl

/-- DECODE's failure rule (R180). -/
theorem losesOutput_of_decodeResult {e : ErrKind} (h : decodeResult s = .error e) : LosesOutput s e :=
  ⟨s.dropOut.setErr e, congrArg (Host.Outcome.next ∘ conclude State.dropOut s) h, rfl⟩

/-- The bits before `rest` are coded: what DECODE computes turns on how the walk goes on from the root. -/
theorem decodeResult_of_coded_append {bits rest : List Bool} {xs : List Sym} (hv : s.treeValid = true)
    (hnode : isNode s.tree = true) (hlen : ceil8 s.bitLen.toNat ≤ s.payLen.toNat)
    (hbits : s.payloadBits = bits ++ rest) (hcoded : Coded s.tree bits xs) (hfit : xs.length ≤ s.caps.outCap) :
    decodeResult s =
      (decodeBits s.tree s.caps.outCap rest s.tree true xs.length).map fun ys =>
        s.writeOut ((xs ++ ys).map byteOf) := by
  rw [decodeResult_of_payload hv hlen, hbits, decodeBits_coded hnode hcoded (by rwa [Nat.zero_add]), Nat.zero_add]
  cases decodeBits s.tree s.caps.outCap rest s.tree true xs.length <;> rfl

/-- The stage on a payload that is coded to its end. -/
theorem decodeResult_of_coded {xs : List Sym} (hv : s.treeValid = true) (hnode : isNode s.tree = true)
    (hlen : ceil8 s.bitLen.toNat ≤ s.payLen.toNat) (hcoded : Coded s.tree s.payloadBits xs)
    (hfit : xs.length ≤ s.caps.outCap) : decodeResult s = .ok (s.writeOut (xs.map byteOf)) := by
  rw [decodeResult_of_coded_append hv hnode hlen (List.append_nil _).symm hcoded hfit]
  exact congrArg (fun ys : List Sym => Except.ok (s.writeOut (ys.map byteOf))) (List.append_nil xs)

theorem State.output_writeOut (s : State) {bs : List Byte} (h : bs.length < 2 ^ 64) : (s.writeOut bs).output = bs := by
  show (Buffer.holding bs s.draws).bytes (BitVec.ofNat 64 bs.length).toNat = bs
  rw [toNat_ofNat64 h, Buffer.bytes_holding]

theorem exec_decode_of_result {t : State} (h : decodeResult s = .ok t) : exec .decode s = .next t :=
  congrArg (Host.Outcome.next ∘ conclude State.dropOut s) h

/-- Bytes of symbols that fit OUT have a number of 64 bits (R10). -/
theorem length_map_byteOf_lt {xs : List Sym} (hcaps : s.caps.wf = true) (hfit : xs.length ≤ s.caps.outCap) :
    (xs.map byteOf).length < 2 ^ 64 := by
  rw [List.length_map]
  exact hfit.trans_lt (capOf_lt hcaps .out)

end

/-- Settles O46: the walk emits the symbols of the payload bits and ends at the root. -/
theorem decodeEmitsTheCodedSymbols : Obligations.DecodeEmitsTheCodedSymbols := by
  intro s xs hv hnode hlen hcoded hfit hcaps
  have hlt := length_map_byteOf_lt hcaps hfit
  refine ⟨_, exec_decode_of_result (decodeResult_of_coded hv hnode hlen hcoded hfit), ?_, s.output_writeOut hlt, rfl⟩
  exact (toNat_ofNat64 hlt).trans (List.length_map byteOf)

/-- Settles O47: the tree is tested first, then the length of the payload; after coded bits the walk is at the root, and
either runs out of bits below it or meets a leaf when OUT is full. -/
theorem decodeErrors : Obligations.DecodeErrors := by
  intro s
  refine ⟨fun h => losesOutput_of_decodeResult (decodeResult_of_invalid h),
    fun hv h => losesOutput_of_decodeResult (decodeResult_of_short hv h), ?_, ?_⟩
  · intro xs bits cut hv hnode hlen hbits hcoded hfit hcut hinside
    apply losesOutput_of_decodeResult
    rw [decodeResult_of_coded_append hv hnode hlen hbits hcoded hfit,
      decodeBits_inside hinside fun hnil => absurd hnil hcut]
    rfl
  · intro xs bits p x rest hv hnode hlen hbits hcoded hfull hpath
    apply losesOutput_of_decodeResult
    rw [List.append_assoc] at hbits
    rw [decodeResult_of_coded_append hv hnode hlen hbits hcoded hfull.le, decodeBits_path hnode hpath,
      if_pos hfull.ge]
    rfl

/-! ### The round trip through ENCODE (R181) -/

/-- The codes of leaf symbols, as a code table of the tree gives them, are coded bits of that tree. -/
theorem coded_codeBits {code : Vector CodeEntry 128} {tr : HuffTree} {xs : List Sym} (h : IsCodeTableOf code tr)
    (hxs : ∀ x ∈ xs, x ∈ leaves tr) : Coded tr (codeBits code xs) xs := by
  obtain ⟨hpaths, -⟩ := h
  induction xs with
  | nil => exact .nil
  | cons x xs ih =>
    obtain ⟨hx, hxs⟩ := List.forall_mem_cons.1 hxs
    obtain ⟨p, hp⟩ := mem_leaves_iff_pathTo.1 hx
    obtain ⟨-, rfl⟩ := hpaths p x hp
    exact .cons hp (ih hxs)

theorem eq_of_exec_gencodes {s c : State} (hv : s.treeValid = true) (h : exec .gencodes s = .next c) :
    c = { s with code := codesOf s.tree } := by
  rw [exec_gencodes_of_valid hv] at h
  exact (Host.Outcome.next.inj h).symm

/-- Settles O49: ENCODE leaves the codes of the source in the payload, and they are coded bits of the tree. -/
theorem encodeThenDecodeGivesTheSource : Obligations.EncodeThenDecodeGivesTheSource := by
  intro s c xs hs hv hsource hxs hgencodes hfit hout
  have hok := hs.tree hv
  have hlen : xs.length = s.srcLen.toNat := State.length_of_source hsource
  obtain ⟨hpresent, -, -⟩ := codeTableIsPrefixFree s c hv hok hgencodes
  obtain rfl := eq_of_exec_gencodes hv hgencodes
  have hcodes : ∀ x ∈ xs, (codesOf s.tree)[x].len ≠ 0 := fun x hx hzero => by
    obtain ⟨hpos, -⟩ := hpresent x (hxs x hx)
    exact Nat.pos_iff_ne_zero.1 hpos (congrArg BitVec.toNat hzero)
  obtain ⟨t, hencode, hbitLen, hpayLen, hbits, -, ht⟩ :=
    encodePacksTheCodesOfTheSource { s with code := codesOf s.tree } xs hs.caps (hs.lengths .src) hsource hcodes hfit
  have hcoded : Coded s.tree t.payloadBits xs := hbits ▸ coded_codeBits (isCodeTableOf_codesOf hok) hxs
  obtain ⟨htree, htv, hcaps⟩ : t.tree = s.tree ∧ t.treeValid = true ∧ t.caps = s.caps := by
    rw [ht]; exact ⟨rfl, hv, rfl⟩
  obtain ⟨u, hdecode, houtLen, houtput, hu⟩ :=
    decodeEmitsTheCodedSymbols t xs htv (htree ▸ ((treeOk_iff _).1 hok).1) (by rw [hbitLen, hpayLen])
      (htree ▸ hcoded) (by rw [hcaps, hlen]; exact hout) (hcaps ▸ hs.caps)
  refine ⟨t, u, hencode, hdecode, BitVec.eq_of_toNat_eq (houtLen.trans hlen), houtput.trans hsource.symm, ?_, ?_⟩
  · rw [hu, ht]; rfl
  · rw [hu, ht]

/-! ### The round trip through COMPRESS -/

/-- DECOMPRESS on a token stream of a valid tree and a payload coded with it (R188). -/
theorem exec_decompress_of_coded {s : State} {tr : HuffTree} {xs : List Sym} (hstream : TokenStream s.tokens tr)
    (hok : treeOk tr = true) (hlen : ceil8 s.bitLen.toNat ≤ s.payLen.toNat) (hcoded : Coded tr s.payloadBits xs)
    (hfit : xs.length ≤ s.caps.outCap) :
    exec .decompress s = .next ((s.installTree tr).writeOut (xs.map byteOf)) := by
  have hparsed : deserializeResult s = .ok (s.installTree tr) := by
    simp only [deserializeResult, treeOfTokens_of_tokenStream hstream hok]
  have hdecoded : decodeResult (s.installTree tr) = .ok ((s.installTree tr).writeOut (xs.map byteOf)) :=
    decodeResult_of_coded rfl ((treeOk_iff tr).1 hok).1 hlen hcoded hfit
  have hresult : decompressResult s = .ok ((s.installTree tr).writeOut (xs.map byteOf)) := by
    simp only [decompressResult, bind, Except.bind, hparsed, hdecoded]
  exact congrArg (Host.Outcome.next ∘ conclude State.dropDecompressed s) hresult

/-- COUNT, BUILD and GENCODES on a source of two distinct symbols or more: the tree is that of the merge loop on the
counts, its leaves are the symbols of the source, and CODE is its code table. -/
theorem exists_tree_of_first_stages {s a b c : State} {xs : List Sym} (hsource : s.source = xs.map byteOf)
    (hdistinct : ∃ x ∈ xs, ∃ y ∈ xs, x ≠ y) (hcount : exec .count s = .next a) (hbuild : exec .build a = .next b)
    (hgencodes : exec .gencodes b = .next c) :
    ∃ cnt tr, CountsOf cnt xs ∧ MergesTo 0 (startQueue cnt) tr ∧ treeOk tr = true ∧ (∀ x ∈ xs, x ∈ leaves tr) ∧
      c.code = codesOf tr := by
  have hlen : xs.length < 2 ^ 64 := (State.length_of_source hsource).trans_lt s.srcLen.isLt
  obtain ⟨cnt, hcounts⟩ := exists_countsOf hlen
  obtain ⟨tr, htree, hmerges⟩ :=
    exists_buildTree_mergesTo (hcounts.two_le_presentSymbols hdistinct) (hcounts.sum_toNat_eq.trans_lt hlen)
  obtain ⟨-, hleaves⟩ := buildTree_ok htree
  rw [exec_count_of_countsOf hsource hcounts] at hcount
  cases hcount
  rw [exec_build_of_tree htree] at hbuild
  cases hbuild
  obtain rfl := eq_of_exec_gencodes rfl hgencodes
  exact ⟨cnt, tr, hcounts, hmerges, treeOk_of_buildTree htree,
    fun x hx => hleaves.mem_iff.2 (hcounts.mem_presentSymbols_iff.2 hx), rfl⟩

/-- Settles O54: COMPRESS leaves the codes of the source in the payload beside the tree they are coded with, and that
tree's token stream in TOK. -/
theorem compressThenDecompressGivesTheSource : Obligations.CompressThenDecompressGivesTheSource := by
  intro s a b c xs hs hsource hdistinct hcount hbuild hgencodes hfit hout
  obtain ⟨cnt, tr, hcounts, hmerges, hok, hxs, hcode⟩ :=
    exists_tree_of_first_stages hsource hdistinct hcount hbuild hgencodes
  have hcoded := coded_codeBits (isCodeTableOf_codesOf hok) hxs
  rw [← hcode] at hcoded
  obtain ⟨hcompletes, -⟩ := compressCompletesOnEverySourceThatFits
  obtain ⟨t, hcompress, -, hbits, hbitLen, hpayLen, htok, ht⟩ :=
    hcompletes s xs cnt tr _ hs hsource hdistinct hcounts hmerges hcoded (by rwa [codeBits_length])
  obtain ⟨htree, htv, hcaps, herr⟩ : t.tree = tr ∧ t.treeValid = true ∧ t.caps = s.caps ∧ t.err = s.err := by
    rw [ht]; exact ⟨rfl, rfl, rfl, rfl⟩
  have hlen : ceil8 t.bitLen.toNat ≤ t.payLen.toNat := by rw [hbitLen, hpayLen, ceil8]
  have hroom : xs.length ≤ t.caps.outCap := by rw [hcaps, State.length_of_source hsource]; exact hout
  have hlt : (xs.map byteOf).length < 2 ^ 64 := length_map_byteOf_lt (hcaps ▸ hs.caps) hroom
  rw [← hbits] at hcoded
  have hdecode := exec_decode_of_result <|
    decodeResult_of_coded htv (htree ▸ ((treeOk_iff tr).1 hok).1) hlen (htree ▸ hcoded) hroom
  have hdecompress := exec_decompress_of_coded (htok ▸ tokenStream_ser tr) hok hlen hcoded hroom
  exact ⟨t, _, _, hcompress, hdecode, hdecompress, (State.output_writeOut _ hlt).trans hsource.symm,
    (State.output_writeOut _ hlt).trans hsource.symm, herr, herr, htree.symm⟩

end Sys2Proof.Machine

/-! The statements about the composite and control commands (spec/46_composite_and_control.md): COMPRESS and DECOMPRESS
against their stages, what they leave on success and on failure, CLRERR, and the hardware reset.

A stage on its own leaves ERR as it was when it succeeds, so from ERR = 0 the ERR it ends with says which result it
computed (`result_ok_of_err`, `KeepsErr.result_error`), and that is the result the composite command chains. -/

namespace Sys2Proof.Machine

/-! ### What ERR after a stage says of its result (R206) -/

/-- A stage that succeeds leaves ERR as it was. -/
def KeepsErr (stage : State → Except ErrKind State) : Prop := ∀ {s t : State}, stage s = .ok t → t.err = s.err

theorem countResult_keepsErr : KeepsErr countResult := fun h => by rw [countResult_frame h]

theorem buildResult_keepsErr : KeepsErr buildResult := fun h => by rw [buildResult_frame h]

theorem gencodesResult_keepsErr : KeepsErr gencodesResult := fun h => by rw [gencodesResult_frame h]

theorem encodeResult_keepsErr : KeepsErr encodeResult := fun h => by rw [encodeResult_frame h]

theorem deserializeResult_keepsErr : KeepsErr deserializeResult := fun h => by rw [deserializeResult_frame h]

theorem decodeResult_keepsErr : KeepsErr decodeResult := fun h => by rw [decodeResult_frame h]

section
variable {fail : State → State} {s t : State}

/-- After a command with ERR = 0 the state is the one its stage computed. -/
theorem result_ok_of_err {r : Except ErrKind State}
    (h : (.next (conclude fail s r) : Host.Outcome State Fault Refusal) = .next t) (herr : t.err = none) :
    r = .ok t := by
  obtain hr | ⟨e, -, rfl⟩ := conclude_next h
  · exact hr
  · cases herr

/-- A command that goes from ERR = 0 to an error raised it. -/
theorem KeepsErr.result_error {stage : State → Except ErrKind State} {e : ErrKind} (hkeeps : KeepsErr stage)
    (h : (.next (conclude fail s (stage s)) : Host.Outcome State Fault Refusal) = .next t) (hs : s.err = none)
    (herr : t.err = some e) : stage s = .error e := by
  obtain hr | ⟨e', hr, rfl⟩ := conclude_next h
  · rw [hkeeps hr, hs] at herr
    cases herr
  · cases herr
    exact hr

end

/-! ### COMPRESS and its stages (R185, R187) -/

/-- Settles O50: a stage that ends with ERR = 0 succeeded, and COMPRESS chains the same results. -/
theorem compressIsItsFiveStages : Obligations.CompressIsItsFiveStages := by
  intro s a b c d e _ hcount ha hbuild hb hgencodes hc hencode hd hserialize he
  have hresult := compressResult_of_stages (result_ok_of_err hcount ha) (result_ok_of_err hbuild hb)
    (result_ok_of_err hgencodes hc) (result_ok_of_err hencode hd) (result_ok_of_err hserialize he)
  exact congrArg (Host.Outcome.next ∘ conclude State.dropCompressed s) hresult

/-- COMPRESS's failure rule (R187). -/
theorem losesCompressed_of_result {s : State} {e : ErrKind} (h : compressResult s = .error e) : LosesCompressed s e :=
  ⟨s.dropCompressed.setErr e, congrArg (Host.Outcome.next ∘ conclude State.dropCompressed s) h, rfl⟩

/-- Settles O51: the stages before the failing one succeeded, so COMPRESS meets the same error. -/
theorem compressReportsItsFirstFailingStage : Obligations.CompressReportsItsFirstFailingStage := by
  intro s a b c d e hs hcount hbuild hgencodes hencode hfails
  apply losesCompressed_of_result
  obtain ha | ⟨ha, hb⟩ | ⟨ha, hb, hc⟩ | ⟨ha, hb, hc, hd⟩ := hfails
  · have herror := countResult_keepsErr.result_error hcount hs ha
    simp only [compressResult, bind, Except.bind, herror]
  · have herror := buildResult_keepsErr.result_error hbuild ha hb
    simp only [compressResult, bind, Except.bind, result_ok_of_err hcount ha, herror]
  · have herror := gencodesResult_keepsErr.result_error hgencodes hb hc
    simp only [compressResult, bind, Except.bind, result_ok_of_err hcount ha, result_ok_of_err hbuild hb, herror]
  · have herror := encodeResult_keepsErr.result_error hencode hc hd
    simp only [compressResult, bind, Except.bind, result_ok_of_err hcount ha, result_ok_of_err hbuild hb,
      result_ok_of_err hgencodes hc, herror]

/-! ### COMPRESS on a source with two distinct symbols -/

/-- What COUNT, BUILD and GENCODES leave on such a source: its counts, the tree of the merge loop on them, and that
tree's codes. -/
theorem exists_tables_of_first_stages {s a b c : State} {xs : List Sym} (hsource : s.source = xs.map byteOf)
    (hdistinct : ∃ x ∈ xs, ∃ y ∈ xs, x ≠ y) (hcount : exec .count s = .next a) (hbuild : exec .build a = .next b)
    (hgencodes : exec .gencodes b = .next c) :
    ∃ cnt tr, CountsOf cnt xs ∧ MergesTo 0 (startQueue cnt) tr ∧ buildTree cnt = .ok tr ∧ (∀ x ∈ xs, x ∈ leaves tr) ∧
      a = { s with cnt } ∧ b = State.installTree { s with cnt } tr ∧ c = tabled s cnt tr := by
  obtain ⟨cnt, tr, hcounts, hmerges, -, hxs, -⟩ :=
    exists_tree_of_first_stages hsource hdistinct hcount hbuild hgencodes
  have hlen : xs.length < 2 ^ 64 := (State.length_of_source hsource).trans_lt s.srcLen.isLt
  have htree := buildTree_of_mergesTo (hcounts.two_le_presentSymbols hdistinct)
    (hcounts.weightSum_eq.trans_lt hlen) hmerges
  rw [exec_count_of_countsOf hsource hcounts] at hcount
  cases hcount
  rw [exec_build_of_tree htree] at hbuild
  cases hbuild
  exact ⟨cnt, tr, hcounts, hmerges, htree, hxs, rfl, rfl, eq_of_exec_gencodes rfl hgencodes⟩

/-- Settles O52: the codes of the source are coded bits of the tree, so COMPRESS completes with them as its payload. -/
theorem compressCompletes : Obligations.CompressCompletes := by
  intro s a b c xs hs hsource hdistinct hcount hbuild hgencodes hfit
  obtain ⟨cnt, tr, hcounts, hmerges, htree, hxs, rfl, rfl, rfl⟩ :=
    exists_tables_of_first_stages hsource hdistinct hcount hbuild hgencodes
  have hcoded := coded_codeBits (isCodeTableOf_codesOf (treeOk_of_buildTree htree)) hxs
  have hbitsFit : ceil8 (codeBits (codesOf tr) xs).length ≤ s.caps.payCap := by rwa [codeBits_length]
  obtain ⟨hcompletes, -⟩ := compressCompletesOnEverySourceThatFits
  obtain ⟨t, hcompress, -, hbits, hbitLen, hpayLen, htok, ht⟩ :=
    hcompletes s xs cnt tr _ hs hsource hdistinct hcounts hmerges hcoded hbitsFit
  obtain rfl : t = compressed s cnt tr (codeBits (codesOf tr) xs) :=
    Host.Outcome.next.inj (hcompress.symm.trans (exec_compress_of_coded hsource hcounts htree hcoded hbitsFit))
  exact ⟨_, hcompress, rfl, rfl, rfl, rfl, hbits, hbitLen.trans codeBits_length, by rw [hpayLen, hbitLen], htok, rfl⟩

/-! ### COMPRESS fails (R186) -/

section
variable {s : State} {xs : List Sym} {cnt : Vector Word 128}

theorem compressResult_of_count_error {e : ErrKind} (h : countResult s = .error e) : compressResult s = .error e := by
  simp only [compressResult, bind, Except.bind, h]

theorem compressResult_of_buildTree_error {e : ErrKind} (hsource : s.source = xs.map byteOf) (hcounts : CountsOf cnt xs)
    (h : buildTree cnt = .error e) : compressResult s = .error e := by
  simp only [compressResult, bind, Except.bind, countResult_of_countsOf hsource hcounts, buildResult, h]

theorem encodeResult_of_bits_error {e : ErrKind} (h : encodeBits s.code s.caps.payCap s.source 0 = .error e) :
    encodeResult s = .error e := by
  simp only [encodeResult, h]

theorem compressResult_of_encode_error {tr : HuffTree} {e : ErrKind} (hsource : s.source = xs.map byteOf)
    (hcounts : CountsOf cnt xs) (htree : buildTree cnt = .ok tr) (h : encodeResult (tabled s cnt tr) = .error e) :
    compressResult s = .error e := by
  have hcoded : gencodesResult (State.installTree { s with cnt } tr) = .ok (tabled s cnt tr) :=
    gencodesResult_of_valid rfl
  simp only [compressResult, bind, Except.bind, countResult_of_countsOf hsource hcounts, buildResult, htree, hcoded, h]

/-- In an empty source no symbol is present. -/
theorem CountsOf.presentSymbols_of_nil (h : CountsOf cnt []) : presentSymbols cnt = [] :=
  List.eq_nil_iff_forall_not_mem.2 fun _ hx => List.not_mem_nil (h.mem_presentSymbols_iff.1 hx)

/-- In a source of one symbol, repeated, that symbol alone is present. -/
theorem CountsOf.presentSymbols_of_replicate {x : Sym} {n : Nat} (h : CountsOf cnt (List.replicate (n + 1) x)) :
    presentSymbols cnt = [x] := by
  have hpresent : ∀ y : Sym, cnt[y] ≠ 0 ↔ y = x := fun y => by
    rw [← mem_presentSymbols, h.mem_presentSymbols_iff, List.mem_replicate]
    exact and_iff_right n.succ_ne_zero
  exact presentSymbols_eq_singleton ((hpresent x).2 rfl) fun y hy => not_not.1 (mt (hpresent y).1 hy)

/-- Every leaf symbol of a valid tree has a code: its path is not empty. -/
theorem codesOf_len_ne_zero {tr : HuffTree} {x : Sym} (hok : treeOk tr = true) (hx : x ∈ leaves tr) :
    (codesOf tr)[x].len ≠ 0 := by
  intro hzero
  obtain ⟨p, hp⟩ := mem_leaves_iff_pathTo.1 hx
  obtain ⟨hlen, -⟩ := (isCodeTableOf_codesOf hok).1 p x hp
  rw [hzero] at hlen
  exact (pathTo_length_pos ((treeOk_iff tr).1 hok).1 hp).ne hlen

/-- Symbols with codes that together do not fit PAY: at one of them the capacity check fails (R168). -/
theorem encodeBits_of_too_long {code : Vector CodeEntry 128} {cap n : Nat} (hcodes : ∀ x ∈ xs, code[x].len ≠ 0)
    (hstart : ceil8 n ≤ cap) (hlong : cap < ceil8 (n + codeLength code xs)) :
    encodeBits code cap (xs.map byteOf) n = .error .capacity := by
  induction xs generalizing n with
  | nil => exact absurd hlong (Nat.not_lt.2 hstart)
  | cons x xs ih =>
    obtain ⟨hx, hxs⟩ := List.forall_mem_cons.1 hcodes
    by_cases hcap : cap < ceil8 (n + code[x].len.toNat)
    · exact encodeBits_cons_of_overflow _ (presentEntry_byteOf hx) hcap
    · rw [codeLength_cons, ← Nat.add_assoc] at hlong
      simp only [List.map_cons, encodeBits, presentEntry_byteOf hx, if_neg hcap, ih hxs (Nat.not_lt.1 hcap) hlong]

end

/-- Settles O53: COUNT meets the byte out of range, BUILD finds fewer than two symbols present, and ENCODE runs out of
room in PAY. -/
theorem compressErrors : Obligations.CompressErrors := by
  refine fun s => ⟨fun hempty => ?_, fun x n hone => ?_, fun b hmem hb => ?_, ?_⟩
  · obtain ⟨cnt, hcounts⟩ := exists_countsOf (xs := []) (by decide)
    exact losesCompressed_of_result <| compressResult_of_buildTree_error (hempty.trans List.map_nil.symm) hcounts
      (buildTree_of_no_symbol hcounts.presentSymbols_of_nil)
  · rw [← List.map_replicate] at hone
    obtain ⟨cnt, hcounts⟩ := exists_countsOf ((State.length_of_source hone).trans_lt s.srcLen.isLt)
    exact losesCompressed_of_result <| compressResult_of_buildTree_error hone hcounts
      (buildTree_of_one_symbol hcounts.presentSymbols_of_replicate)
  · exact losesCompressed_of_result (compressResult_of_count_error (countResult_of_outOfRange hmem hb))
  · intro a b c xs hsource hdistinct hcount hbuild hgencodes hlong
    obtain ⟨cnt, tr, hcounts, -, htree, hxs, rfl, rfl, rfl⟩ :=
      exists_tables_of_first_stages hsource hdistinct hcount hbuild hgencodes
    have hcodes : ∀ x ∈ xs, (codesOf tr)[x].len ≠ 0 :=
      fun x hx => codesOf_len_ne_zero (treeOk_of_buildTree htree) (hxs x hx)
    have hbits : encodeBits (codesOf tr) s.caps.payCap (xs.map byteOf) 0 = .error .capacity :=
      encodeBits_of_too_long hcodes (Nat.zero_le _) (by rwa [Nat.zero_add])
    rw [← hsource] at hbits
    have hencode : encodeResult (tabled s cnt tr) = .error .capacity := encodeResult_of_bits_error hbits
    exact losesCompressed_of_result (compressResult_of_encode_error hsource hcounts htree hencode)

/-! ### DECOMPRESS (R188, R190) -/

/-- Settles O55: DESERIALIZE reads the tree of the stream, and with it DECODE the coded payload. -/
theorem decompressCompletes : Obligations.DecompressCompletes := by
  intro s tr xs hstream hok hlen hcoded hfit hcaps
  have hlt := length_map_byteOf_lt hcaps hfit
  have hdecode := exec_decode_of_result <|
    decodeResult_of_coded (s := s.installTree tr) rfl ((treeOk_iff tr).1 hok).1 hlen hcoded hfit
  exact ⟨_, _, exec_deserialize_of_tree (treeOfTokens_of_tokenStream hstream hok), hdecode,
    exec_decompress_of_coded hstream hok hlen hcoded hfit, (toNat_ofNat64 hlt).trans (List.length_map byteOf),
    State.output_writeOut _ hlt, rfl⟩

/-- DECOMPRESS's failure rule (R190). -/
theorem losesDecompressed_of_result {s : State} {e : ErrKind} (h : decompressResult s = .error e) :
    LosesDecompressed s e :=
  ⟨s.dropDecompressed.setErr e, congrArg (Host.Outcome.next ∘ conclude State.dropDecompressed s) h, rfl⟩

/-- Settles O56: the failure rule drops the tree too, whichever stage raised. -/
theorem decompressReportsItsFirstFailingStage : Obligations.DecompressReportsItsFirstFailingStage := by
  intro s a b e hs hdeserialize hdecode hfails
  apply losesDecompressed_of_result
  obtain ha | ⟨ha, hb⟩ := hfails
  · have herror := deserializeResult_keepsErr.result_error hdeserialize hs ha
    simp only [decompressResult, bind, Except.bind, herror]
  · have herror := decodeResult_keepsErr.result_error hdecode ha hb
    simp only [decompressResult, bind, Except.bind, result_ok_of_err hdeserialize ha, herror]

/-! ### CLRERR and the reset (R191, R193, R230) -/

/-- Settles O57. -/
theorem clrerrClearsErrOnly : Obligations.ClrerrClearsErrOnly := fun _ => rfl

theorem step_of_reset {s : State} {ts : List Turn} (h : s.turns = .reset :: ts) :
    step s = .next (State.resetBlock { s with turns := ts }) := by
  simp only [step, advance, h, takeTurn]

/-- Settles O26: the reset turn asks neither BUSY nor PENDING, and applies what SRST applies. -/
theorem hardwareResetActsAtAnyTime : Obligations.HardwareResetActsAtAnyTime := by
  intro s ts hturns
  have hregs : ∀ r, (State.resetBlock { s with turns := ts }).getReg r = 0 := fun r => by cases r <;> rfl
  exact ⟨_, step_of_reset hturns, rfl, rfl, rfl, rfl, hregs, rfl, rfl, rfl, rfl, rfl⟩

end Sys2Proof.Machine

/-! The statements about errors (spec/60_exceptions.md): the codes STATUS shows, which command raises which error, how a
CMD write is judged, and that ERR keeps its first code.

Every command ends in `conclude` (`exec_eq_conclude`), so the error it leaves in ERR is the one its result raises:
R208 is a statement about results. -/

namespace Sys2Proof.Machine

/-! ### The error a command raises is that of its result (R206) -/

/-- What the stage or the stages of a command compute; the control commands never raise. -/
def commandResult (s : State) : Instr → Except ErrKind State
  | .count => countResult s
  | .build => buildResult s
  | .gencodes => gencodesResult s
  | .serialize => serializeResult s
  | .encode => encodeResult s
  | .deserialize => deserializeResult s
  | .decode => decodeResult s
  | .compress => compressResult s
  | .decompress => decompressResult s
  | .clrerr => .ok s.clearErr
  | .srst => .ok s.resetBlock

/-- The failure rule of a command: what it leaves of the state when it raises. -/
def failureRule : Instr → State → State
  | .count => State.zeroCnt
  | .build | .deserialize => State.dropTree
  | .gencodes => State.clearCodes
  | .serialize => State.dropTok
  | .encode => State.dropPay
  | .decode => State.dropOut
  | .compress => State.dropCompressed
  | .decompress => State.dropDecompressed
  | .clrerr | .srst => id

theorem exec_eq_conclude (i : Instr) (s : State) :
    exec i s = .next (conclude (failureRule i) s (commandResult s i)) := by
  cases i <;> rfl

/-- A command that succeeds raises nothing. -/
theorem commandResult_ok_err {i : Instr} {s t : State} (h : commandResult s i = .ok t) (hs : s.err = none) :
    t.err = none := by
  cases i
  case count => exact (countResult_keepsErr h).trans hs
  case build => exact (buildResult_keepsErr h).trans hs
  case gencodes => exact (gencodesResult_keepsErr h).trans hs
  case serialize => exact (congrArg State.err (serializeResult_frame h)).trans hs
  case encode => exact (encodeResult_keepsErr h).trans hs
  case deserialize => exact (deserializeResult_keepsErr h).trans hs
  case decode => exact (decodeResult_keepsErr h).trans hs
  case compress => exact (congrArg State.err (compressResult_frame h)).trans hs
  case decompress => exact (congrArg State.err (decompressResult_frame h)).trans hs
  case clrerr => cases h; rfl
  case srst => cases h; rfl

/-! ### The errors of each result (R208) -/

theorem buildTree_error {cnt : Vector Word 128} {e : ErrKind} (h : buildTree cnt = .error e) : e ∈ mayRaise .build := by
  unfold buildTree at h
  split at h
  · cases h; decide
  · cases h; decide
  · split at h <;> cases h
    decide

theorem buildResult_error {s : State} {e : ErrKind} (h : buildResult s = .error e) : e ∈ mayRaise .build := by
  unfold buildResult at h
  split at h
  · next e' htree => cases h; exact buildTree_error htree
  · cases h

/-- ENCODE raises UnknownSymbolError only at a byte without an entry (R167). -/
theorem encodeBits_error {code : Vector CodeEntry 128} {cap n : Nat} {bs : List Byte} {e : ErrKind}
    (h : encodeBits code cap bs n = .error e) :
    (e = .unknownSymbol ∧ ∃ b ∈ bs, presentEntry code b = none) ∨ e = .capacity := by
  induction bs generalizing n with
  | nil => cases h
  | cons b bs ih =>
    unfold encodeBits at h
    split at h
    · next hnone => cases h; exact .inl ⟨rfl, b, List.mem_cons_self, hnone⟩
    · split at h
      · cases h; exact .inr rfl
      · split at h
        · next e' hrest =>
          cases h
          exact (ih hrest).imp_left fun ⟨he, c, hc, hnone⟩ => ⟨he, c, List.mem_cons_of_mem b hc, hnone⟩
        · cases h

theorem encodeResult_error {s : State} {e : ErrKind} (h : encodeResult s = .error e) :
    (e = .unknownSymbol ∧ ∃ b ∈ s.source, presentEntry s.code b = none) ∨ e = .capacity := by
  unfold encodeResult at h
  split at h
  · next e' hbits => cases h; exact encodeBits_error hbits
  · cases h

theorem decodeBits_error {root cur : HuffTree} {cap m : Nat} {bits : List Bool} {atRoot : Bool} {e : ErrKind}
    (h : decodeBits root cap bits cur atRoot m = .error e) : e = .invalidFormat ∨ e = .capacity := by
  induction bits generalizing cur atRoot m with
  | nil =>
    unfold decodeBits at h
    split at h <;> cases h
    exact .inl rfl
  | cons bit bits ih =>
    unfold decodeBits at h
    split at h
    · split at h
      · cases h; exact .inr rfl
      · split at h
        · next e' hrest => cases h; exact ih hrest
        · cases h
    · exact ih h

/-- DECODE raises SequenceError only without a tree (R179). -/
theorem decodeResult_error {s : State} {e : ErrKind} (h : decodeResult s = .error e) :
    (e = .sequence ∧ s.treeValid = false) ∨ e = .invalidFormat ∨ e = .capacity := by
  unfold decodeResult at h
  split at h
  · split at h
    · cases h; exact .inr (.inl rfl)
    · split at h
      · next e' hbits => cases h; exact .inr (decodeBits_error hbits)
      · cases h
  · next hv => cases h; exact .inl ⟨rfl, Bool.eq_false_of_not_eq_true hv⟩

/-- After the tree has parsed, DECODE finds one: DECOMPRESS raises no SequenceError. -/
theorem decompressResult_error {s : State} {e : ErrKind} (h : decompressResult s = .error e) :
    e = .invalidFormat ∨ e = .capacity := by
  obtain hdeserialize | ⟨parsed, hdeserialize, hdecode⟩ := bind_eq_error h
  · exact .inl (deserializeResult_error hdeserialize)
  · obtain ⟨tr, -, rfl⟩ := deserializeResult_ok hdeserialize
    obtain ⟨-, hv⟩ | he := decodeResult_error hdecode
    · cases hv
    · exact he

/-- COUNT, BUILD and GENCODES give every source symbol a code, so ENCODE after them raises no UnknownSymbolError. -/
theorem encodeResult_error_of_stages {s counted built coded : State} {e : ErrKind} (hcount : countResult s = .ok counted)
    (hbuild : buildResult counted = .ok built) (hgencodes : gencodesResult built = .ok coded)
    (h : encodeResult coded = .error e) : e = .capacity := by
  obtain ⟨xs, hsource⟩ | ⟨b, hmem, hb⟩ := bytes_cases s.source
  · obtain ⟨cnt, hcounts⟩ := exists_countsOf ((State.length_of_source hsource).trans_lt s.srcLen.isLt)
    obtain rfl : { s with cnt } = counted :=
      Except.ok.inj ((countResult_of_countsOf hsource hcounts).symm.trans hcount)
    obtain ⟨tr, htree, rfl⟩ := buildResult_ok hbuild
    obtain ⟨-, rfl⟩ := gencodesResult_ok hgencodes
    obtain ⟨-, b, hb, hnone⟩ | he := encodeResult_error h
    · obtain ⟨x, hx, rfl⟩ := List.mem_map.1 (hsource ▸ hb)
      obtain ⟨-, hleaves⟩ := buildTree_ok htree
      have hcode : (codesOf tr)[x].len ≠ 0 :=
        codesOf_len_ne_zero (treeOk_of_buildTree htree) (hleaves.mem_iff.2 (hcounts.mem_presentSymbols_iff.2 hx))
      cases hnone.symm.trans (presentEntry_byteOf hcode)
    · exact he
  · cases (countResult_of_outOfRange hmem hb).symm.trans hcount

/-- With a tree built and coded neither GENCODES nor SERIALIZE raises (R186). -/
theorem compressResult_error {s : State} {e : ErrKind} (h : compressResult s = .error e) : e ∈ mayRaise .compress := by
  obtain h | ⟨encoded, h, hserialize⟩ := bind_eq_error h
  · obtain h | ⟨coded, h, hencode⟩ := bind_eq_error h
    · obtain h | ⟨built, h, hgencodes⟩ := bind_eq_error h
      · obtain hcount | ⟨counted, -, hbuild⟩ := bind_eq_error h
        · obtain rfl := countResult_error hcount
          decide
        · have hrow : mayRaise .build ⊆ mayRaise .compress := by decide
          exact hrow (buildResult_error hbuild)
      · obtain ⟨counted, -, hbuild⟩ := bind_eq_ok h
        obtain ⟨tr, -, rfl⟩ := buildResult_ok hbuild
        cases (gencodesResult_error hgencodes).2
    · obtain ⟨built, h, hgencodes⟩ := bind_eq_ok h
      obtain ⟨counted, hcount, hbuild⟩ := bind_eq_ok h
      obtain rfl := encodeResult_error_of_stages hcount hbuild hgencodes hencode
      decide
  · obtain ⟨coded, h, hencode⟩ := bind_eq_ok h
    obtain ⟨built, -, hgencodes⟩ := bind_eq_ok h
    obtain ⟨hv, rfl⟩ := gencodesResult_ok hgencodes
    obtain ⟨bits, -, rfl⟩ := encodeResult_ok hencode
    cases hv.symm.trans (serializeResult_error hserialize).2

theorem commandResult_error {i : Instr} {s : State} {e : ErrKind} (h : commandResult s i = .error e) :
    e ∈ mayRaise i := by
  cases i
  case count => simpa [mayRaise] using countResult_error h
  case build => exact buildResult_error h
  case gencodes => simpa [mayRaise] using (gencodesResult_error h).1
  case serialize => simpa [mayRaise] using (serializeResult_error h).1
  case encode => simpa [mayRaise] using (encodeResult_error h).imp_left And.left
  case deserialize => simpa [mayRaise] using deserializeResult_error h
  case decode => obtain ⟨rfl, -⟩ | rfl | rfl := decodeResult_error h <;> decide
  case compress => exact compressResult_error h
  case decompress => simpa [mayRaise] using decompressResult_error h
  case clrerr => cases h
  case srst => cases h

/-! ### A state in which each error is raised -/

/-- A tree of two leaves, and its token stream. -/
def twoLeaves : HuffTree := .node (.leaf 0x62) (.leaf 0x61)

/-- A state in which every command whose row of R208 has the error raises it.  For CapacityError PAY and OUT hold one
byte: the counts sum to 2^64, the nine source bytes have nine code bits, and the payload codes two symbols.  No command
raises IllegalCommandError. -/
def provoking : ErrKind → State
  | .emptyInput | .sequence | .illegalCommand => State.reset
  | .singleSymbol =>
    { State.reset with src := .holding [0x61] 0, srcLen := 1, cnt := zeroCounts.set 0x61 1 }
  | .unknownSymbol => { State.reset with src := .holding [0x61] 0, srcLen := 1 }
  | .symbolRange => { State.reset with src := .holding [0x80] 0, srcLen := 1 }
  | .invalidFormat => { State.reset with tree := twoLeaves, treeValid := true, bitLen := 1 }
  | .capacity =>
    { State.reset with
      caps := { Config.Caps.largest with payCap := 1, outCap := 1 }
      src := .holding [0x61, 0x61, 0x61, 0x61, 0x61, 0x61, 0x61, 0x61, 0x62] 0, srcLen := 9
      cnt := (zeroCounts.set 0x61 0xFFFFFFFFFFFFFFFF).set 0x62 1
      tree := twoLeaves, treeValid := true, code := codesOf twoLeaves
      tok := .holding (ser twoLeaves) 0, tokLen := 9
      pay := .holding [0x00] 0, payLen := 1, bitLen := 2 }

theorem provoking_err (e : ErrKind) : (provoking e).err = none := by
  cases e <;> rfl

theorem provoking_raises (i : Instr) :
    ∀ e ∈ mayRaise i, (conclude (failureRule i) (provoking e) (commandResult (provoking e) i)).err = some e := by
  cases i <;> decide +kernel

/-- Settles O11: the error is that of the result, and `provoking` is a state for each. -/
theorem commandsRaiseTheErrorsOfTheirRow : Obligations.CommandsRaiseTheErrorsOfTheirRow := by
  constructor
  · intro i s t hs h
    rw [exec_eq_conclude] at h
    obtain hok | ⟨e, herror, rfl⟩ := conclude_next h
    · exact .inl (commandResult_ok_err hok hs)
    · exact .inr ⟨e, commandResult_error herror, rfl⟩
  · intro i e he
    exact ⟨provoking e, _, provoking_err e, exec_eq_conclude i (provoking e), provoking_raises i e he⟩

/-! ### ERR is sticky (R210, R212) -/

theorem runsOnError_iff (i : Instr) : runsOnError i = true ↔ i = .clrerr ∨ i = .srst := by
  cases i <;> decide

/-- With ERR set no host access changes it: a CMD write that would raise another error is ignored. -/
theorem hostAccess_keeps_err {a : Access} {s t : State} {e : ErrKind} (hs : s.err = some e)
    (h : hostAccess a s = .next t) : t.err = some e := by
  unfold hostAccess at h
  split at h
  · obtain ⟨_, rfl⟩ := busyAccess_next h
    exact hs
  · obtain ⟨op, _, rfl⟩ | ⟨v, d, rfl⟩ | ⟨r, v, _, _, _, _, rfl⟩ | ⟨x, w, _, rfl⟩ | ⟨b, i, v, _, _, _, rfl⟩ :=
      idleAccess_next h
    · obtain ⟨_, _, _, hw⟩ | hw | ⟨hnone, _⟩ := writeCmd_cases op s
      · rw [hw]; exact hs
      · rw [hw]; exact hs
      · rw [hs] at hnone; cases hnone
    · exact hs
    · cases r <;> exact hs
    · exact hs
    · cases b <;> exact hs

/-- With ERR set only CLRERR or SRST can be in flight, and both clear it. -/
theorem coreTurn_err {s t : State} {e : ErrKind} (hp : PendingAccepted s) (hs : s.err = some e)
    (h : coreTurn s = .next t) :
    t.err = some e ∨
    (t.err = none ∧ s.busy = true ∧ (decode s.pending = .command .clrerr ∨ decode s.pending = .command .srst)) := by
  obtain ⟨_, rfl⟩ | ⟨hbusy, i, u, hd, hexec, rfl⟩ := coreTurn_next h
  · exact .inl hs
  · obtain ⟨j, hj, hrun⟩ := hp hbusy
    obtain rfl : i = j := Decoded.command.inj (hd.symm.trans hj)
    obtain rfl | rfl := (runsOnError_iff i).1 (hrun.resolve_left (by simp [hs]))
    · cases hexec
      exact .inr ⟨rfl, hbusy, .inl hd⟩
    · cases hexec
      exact .inr ⟨rfl, hbusy, .inr hd⟩

/-- Settles O7, by what a step can do. -/
theorem errKeepsItsFirstCode : Obligations.ErrKeepsItsFirstCode := by
  intro s t e hinv hs h
  obtain ⟨_, h⟩ | ⟨ts, _, h⟩ | ⟨ts, hts, rfl⟩ | ⟨a, ts, _, h⟩ := step_next h
  · exact (coreTurn_err hinv.pending hs h).imp_right (And.imp_right .inr)
  · exact (coreTurn_err (hinv.with_turns ts).pending hs h).imp_right (And.imp_right .inr)
  · exact .inr ⟨rfl, .inl ⟨ts, hts⟩⟩
  · exact .inl (hostAccess_keeps_err (s := { s with turns := ts }) hs h)

/-! ### How a CMD write is judged (R205, R211) -/

theorem eq_of_decodeIn_illegal {rows : List OpcodeRow} {op op' : Byte} (h : decodeIn rows op = .illegal op') :
    op' = op := by
  induction rows with
  | nil => cases h; rfl
  | cons r rows ih =>
    unfold decodeIn at h
    split at h
    · cases h
    · exact ih h

/-- A word that is no command's is illegal, by its own value (R83). -/
theorem decode_illegal_of_ne {op : Byte} (h : ∀ i, op ≠ encode i) : decode op = .illegal op := by
  cases hd : decode op with
  | command i => exact absurd ((decode_eq_command_iff i op).1 hd) (h i)
  | illegal op' => rw [eq_of_decodeIn_illegal hd]

section
variable {s : State} {op : Byte}

theorem hostAccess_writeCmd (hbusy : s.busy = false) : hostAccess (.writeCmd op) s = .next (writeCmd op s) :=
  hostAccess_of_idle hbusy _

theorem writeCmd_of_command {i : Instr} (hd : decode op = .command i) (hrun : s.err = none ∨ runsOnError i = true) :
    writeCmd op s = s.accept op := by
  have hjudged : (runsOnError i || s.err.isNone) = true := by
    rw [Bool.or_eq_true, Option.isNone_iff_eq_none]
    exact hrun.symm
  simp only [writeCmd, hd, hjudged, if_true]

theorem writeCmd_of_illegal {op' : Byte} (hd : decode op = .illegal op') (hs : s.err = none) :
    writeCmd op s = s.setErr .illegalCommand := by
  simp only [writeCmd, hd, hs, Option.isNone_none, if_true]

/-- While ERR ≠ 0 a CMD write of anything but CLRERR and SRST is ignored (R210). -/
theorem writeCmd_of_err (hclrerr : op ≠ encode .clrerr) (hsrst : op ≠ encode .srst) (hs : s.err ≠ none) :
    writeCmd op s = s := by
  obtain ⟨i, hd, hrun, _⟩ | hw | ⟨hnone, _⟩ := writeCmd_cases op s
  · obtain rfl | rfl := (runsOnError_iff i).1 (hrun.resolve_left hs)
    · exact absurd ((decode_eq_command_iff _ op).1 hd) hclrerr
    · exact absurd ((decode_eq_command_iff _ op).1 hd) hsrst
  · exact hw
  · exact absurd hnone hs

end

/-- The words of the commands lie outside the illegal ranges of R83. -/
theorem encode_ranges (i : Instr) :
    ¬(encode i = 0 ∨ (0x0A ≤ (encode i).toNat ∧ (encode i).toNat ≤ 0x0D) ∨ 0x10 ≤ (encode i).toNat) := by
  cases i <;> decide

/-- Settles O14. -/
theorem illegalOpcodesRaiseIllegalCommand : Obligations.IllegalOpcodesRaiseIllegalCommand := by
  intro op hop
  have hd : decode op = .illegal op := decode_illegal_of_ne fun i hi => encode_ranges i (hi ▸ hop)
  refine ⟨hd, fun s hbusy hs => ?_⟩
  rw [hostAccess_writeCmd hbusy, writeCmd_of_illegal hd hs]
  rfl

/-- Settles O15, a line of R211 at a time. -/
theorem cmdWriteIsJudgedInOrder : Obligations.CmdWriteIsJudgedInOrder := by
  intro s op
  refine ⟨fun hbusy => ?_, fun hbusy hop => ?_, fun hbusy hclrerr hsrst hs => ?_, fun hbusy hs hd => ?_,
    fun hbusy hs i hd => ?_⟩
  · simp [hostAccess, hbusy, busyAccess]
  · rw [hostAccess_writeCmd hbusy]
    obtain rfl | rfl := hop
    · exact congrArg Host.Outcome.next (writeCmd_of_command (decode_encode .clrerr) (.inr rfl))
    · exact congrArg Host.Outcome.next (writeCmd_of_command (decode_encode .srst) (.inr rfl))
  · rw [hostAccess_writeCmd hbusy, writeCmd_of_err hclrerr hsrst hs]
  · rw [hostAccess_writeCmd hbusy, writeCmd_of_illegal hd hs]
    rfl
  · rw [hostAccess_writeCmd hbusy, writeCmd_of_command hd (.inl hs)]
    rfl

/-! ### The codes (R200) -/

/-- Settles O25: STATUS shows ERR in bits 7:4. -/
theorem errorCodesOfR200 : Obligations.ErrorCodesOfR200 := by
  intro s
  obtain ⟨-, -, -, hfield, -⟩ := statusWord_fields s.errField s.treeValid s.busy
  have hshown : s.status.extractLsb' 4 4 = s.errField := hfield
  rw [hshown, State.errField]
  cases s.err with
  | none => rfl
  | some e => cases e <;> rfl

end Sys2Proof.Machine

/-! The statements about the handshake and refused accesses (spec/70_reset_and_hazards.md): which host accesses are
refused, that nothing else stops a step, and that an accepted command completes however often the host polls. -/

namespace Sys2Proof.Machine

/-! ### What each host access refuses (R245) -/

section
variable {s : State}

theorem writeReg_refused_iff {r : DataReg} {v : Word} :
    (∃ why, writeReg r v s = .refused why) ↔ ∀ bound, s.regBound r = some bound → bound < v.toNat := by
  unfold writeReg
  split
  · next hr => simp [hr]
  · next bound hr => split <;> simp_all

theorem readByte_refused_iff {b : Buf} {i : Nat} : (∃ why, readByte b i s = .refused why) ↔ s.capOf b ≤ i := by
  unfold readByte
  split
  · next hi => simp [hi]
  · next hi => split <;> simp [hi]

theorem writeByte_refused_iff {b : Buf} {i : Nat} {v : Byte} :
    (∃ why, writeByte b i v s = .refused why) ↔ b = .out ∨ s.capOf b ≤ i := by
  unfold writeByte
  split
  · next hb => simp [hb]
  · next hb => split <;> simp_all

theorem busyAccess_refused_iff {a : Access} : (∃ why, busyAccess a s = .refused why) ↔ a ≠ .readStatus := by
  unfold busyAccess
  split <;> simp_all

/-- No host access faults. -/
theorem hostAccess_next_or_refused (a : Access) (s : State) :
    (∃ t, hostAccess a s = .next t) ∨ ∃ why, hostAccess a s = .refused why := by
  unfold hostAccess
  split
  · unfold busyAccess
    split
    · exact .inl ⟨_, rfl⟩
    · exact .inr ⟨_, rfl⟩
  · cases a <;> simp only [idleAccess]
    case writeReg r v =>
      unfold writeReg
      split
      · exact .inr ⟨_, rfl⟩
      · split
        · exact .inl ⟨_, rfl⟩
        · exact .inr ⟨_, rfl⟩
    case readByte b i =>
      unfold readByte
      split
      · exact .inr ⟨_, rfl⟩
      · split <;> exact .inl ⟨_, rfl⟩
    case writeByte b i v =>
      unfold writeByte
      split
      · exact .inr ⟨_, rfl⟩
      · split
        · exact .inr ⟨_, rfl⟩
        · exact .inl ⟨_, rfl⟩
    all_goals simp

end

/-- Settles O19: with BUSY = 0 the register, the capacity or the access itself decides. -/
theorem refusedAccessesAreThoseOfR245 : Obligations.RefusedAccessesAreThoseOfR245 := by
  intro s a
  cases hbusy : s.busy with
  | true => simpa [hostAccess, hbusy] using busyAccess_refused_iff
  | false =>
    rw [hostAccess_of_idle hbusy]
    cases a
    case writeReg r v =>
      rw [idleAccess, writeReg_refused_iff]
      cases r
      case bitLen =>
        have hv : ¬ 2 ^ 64 - 1 < v.toNat := Nat.not_lt.2 (Nat.le_pred_of_lt v.isLt)
        simpa [State.regBound] using hv
      all_goals simp [State.regBound, tokCap]
    case readByte b i => simpa [idleAccess] using readByte_refused_iff
    case writeByte b i v => simpa [idleAccess] using writeByte_refused_iff
    all_goals simp [idleAccess]

/-! ### Nothing else stops a step (R238) -/

theorem coreTurn_answers_next {s : State} (hp : PendingAccepted s) : ∃ t, coreTurn s = .next t := by
  cases hbusy : s.busy with
  | false => exact ⟨s, if_neg (by simp [hbusy])⟩
  | true =>
    obtain ⟨i, hi, -⟩ := hp hbusy
    obtain ⟨t, ht⟩ := exec_answers_next i s
    exact ⟨t.finish, coreTurn_of_pending hbusy hi ht⟩

theorem step_of_host {s : State} {a : Access} {ts : List Turn} (h : s.turns = .host a :: ts) :
    step s = hostAccess a { s with turns := ts } := by
  simp only [step, advance, h, takeTurn]

/-- Settles O6: a reset always answers, the core's turn runs an accepted command, and a host access answers or is
refused. -/
theorem onlyAHostAccessStopsAStep : Obligations.OnlyAHostAccessStopsAStep := by
  intro s hs
  have hcore (ts : List Turn) (h : s.turns = .core :: ts ∨ (s.turns = [] ∧ ts = [])) : ∃ t, step s = .next t := by
    rw [step_of_coreTurn h]
    exact coreTurn_answers_next (hs.with_turns ts).pending
  cases hturns : s.turns with
  | nil => exact .inl (hcore [] (.inr ⟨hturns, rfl⟩))
  | cons x ts =>
    cases x with
    | core => exact .inl (hcore ts (.inl hturns))
    | reset => exact .inl ⟨_, step_of_reset hturns⟩
    | host a =>
      rw [step_of_host hturns]
      obtain hnext | ⟨why, hrefused⟩ := hostAccess_next_or_refused a { s with turns := ts }
      · exact .inl hnext
      · exact .inr ⟨a, ts, why, rfl, hrefused, hrefused⟩

/-! ### Polling (R237, R238) -/

theorem run_succ_of_step {M : Host.Core} {s u : M.State} (h : M.step s = .next u) (n : Nat) :
    M.run (n + 1) s = M.run n u := by
  simp only [Host.Core.run, h]

theorem run_one {s t : State} (h : step s = .next t) : Sys2Proof.core.run 1 s = .next t :=
  run_succ_of_step (M := Sys2Proof.core) (s := s) h 0

/-- A run goes on from the state an earlier part of it answers. -/
theorem run_add {M : Host.Core} {m : Nat} {s t : M.State} (h : M.run m s = .next t) (n : Nat) :
    M.run (m + n) s = M.run n t := by
  induction m generalizing s with
  | zero => cases h; rw [Nat.zero_add]
  | succ m ih =>
    obtain ⟨u, hu, h⟩ := run_succ_next h
    rw [Nat.succ_add, run_succ_of_step hu, ih h]

/-- A STATUS read while BUSY = 1 takes its turn and records STATUS, nothing else (R237). -/
theorem step_of_poll {s : State} {ts : List Turn} (hbusy : s.busy = true) (h : s.turns = .host .readStatus :: ts) :
    step s = .next { s with turns := ts, seen := .status s.status :: s.seen } := by
  rw [step_of_host h]
  exact (if_pos hbusy).trans (if_pos rfl)

/-- Polls leave the STATUS they read as it was, so every one reads the same. -/
theorem run_polls {s : State} {n : Nat} (hbusy : s.busy = true) (h : s.turns = List.replicate n (.host .readStatus)) :
    Sys2Proof.core.run n s =
      .next { s with turns := [], seen := List.replicate n (.status s.status) ++ s.seen } := by
  induction n generalizing s with
  | zero =>
    cases s
    cases h
    rfl
  | succ n ih =>
    have hrest := ih (s := { s with turns := List.replicate n (.host .readStatus), seen := .status s.status :: s.seen })
      hbusy rfl
    rw [List.replicate_succ', List.append_assoc]
    exact (run_succ_of_step (M := Sys2Proof.core) (step_of_poll hbusy h) n).trans hrest

/-- Settles O18: after the polls no turn is left, so the next step is the core's, which ends with BUSY = 0. -/
theorem everyAcceptedCommandCompletes : Obligations.EveryAcceptedCommandCompletes := by
  intro s n hs hbusy hturns
  have hpolls := run_polls hbusy hturns
  refine ⟨hpolls, ?_⟩
  have hinv := run_keeps stepKeepsTheInvariant hs hpolls
  obtain ⟨t, ht⟩ | ⟨a, ts, _, hhost, _⟩ := onlyAHostAccessStopsAStep _ hinv
  · exact ⟨t, (run_add hpolls 1).trans (run_one ht), (step_turns ht).2 rfl⟩
  · cases hhost

end Sys2Proof.Machine
